-- ==== Sys2Proof/Word.lean ====
section
/-! DEFINITION. The words of the block: bytes, the 16-bit words of the ports, messages and tables (R6, R9, R10). -/

namespace Sys2Proof

/-- An 8-bit unsigned value, bit 7 the most significant (R9). -/
abbrev Byte := BitVec 8

/-- A 16-bit word of the `IN` or `OUT` port: indivisible, without a byte order (R9, R45). -/
abbrev IoWord := BitVec 16

/-- A message: a finite sequence of bytes of any length, the first byte processed first (R10, R44, U17). -/
abbrev Message := List Byte

/-- A table operand of the functions `crc8_tbl` and `crc8_tbl_r`: exactly one byte for each of the 256 indices (R10). -/
abbrev Table := Byte → Byte

end Sys2Proof
end

