-- ==== Sys2Proof/Config.lean ====
section
/-! DEFINITION. The constants of the block (R6, R7, R21), the closed sets of names its state uses, and the free values
that stand for what the spec leaves unspecified after a reset (R32). -/

namespace Sys2Proof

/-- The four checksum operations, the values of the register `OP` (R26). -/
inductive ChecksumOp where
  | crc8s
  | crc8t
  | crc8sr
  | crc8tr
  deriving DecidableEq, Repr, Inhabited

/-- The two table banks: `TBL_N` is `normal`, `TBL_R` is `reflected` (R22, R23, R40). -/
inductive BankId where
  | normal
  | reflected
  deriving DecidableEq, Repr

/-- The generator polynomial constant `POLY` (R7, R21). -/
def Config.POLY : Byte := 0x9B

/-- The reflected constant `RPOLY`, formed at design time (R7, R21). -/
def Config.RPOLY : Byte := 0xD9

/-- The accumulator at the start of every checksum, `INIT` (R6). -/
def Config.INIT : Byte := 0x00

/-- FREE VALUE (log 5): what `ACC` holds after the n-th `RST` event of a run; the spec leaves it unspecified (R32, R185, U3).
DESIGN CHOICE of form; safe: nothing can be proved of the value. -/
opaque Config.accAfterReset : Nat → Byte

/-- FREE VALUE (log 5): what `OP` holds after the n-th `RST` event of a run; the spec leaves it unspecified (R32, R185, U4).
DESIGN CHOICE of form; safe. -/
opaque Config.opAfterReset : Nat → ChecksumOp

/-- FREE VALUE (log 6): what an entry of a bank holds that no build has written since the n-th `RST` event (R22, R23, R32, U5).
DESIGN CHOICE of form; safe. -/
opaque Config.unbuiltEntry : Nat → BankId → Byte → Byte

end Sys2Proof
end

