-- ==== Sys2Proof/Machine/Datapath.lean ====
section
/-! DEFINITION. The datapath as pure functions: shifts (R13, R14), the bit reflector (R80), rounds, byte steps, tables and
checksums of both conventions (R90 to R92, R100, R102, R115 to R117, R125, R127). No function here has an exceptional case (R16). -/

namespace Sys2Proof.Machine

/-- `a << 1`, the truncating left shift of R13: `a[7]` is discarded, bit 0 becomes 0. -/
def shl1 (a : Byte) : Byte := a <<< 1

/-- `a >> 1`, the logical right shift of R14: `a[0]` is discarded, bit 7 becomes 0. -/
def shr1 (a : Byte) : Byte := a >>> 1

/-- `reflect8(b)`, written out as in R80: the bits `b[0], b[1], …, b[7]` with `b[0]` in the top place. -/
def reflect8 (b : Byte) : Byte :=
  BitVec.ofBool b[0] ++ BitVec.ofBool b[1] ++ BitVec.ofBool b[2] ++ BitVec.ofBool b[3] ++
  BitVec.ofBool b[4] ++ BitVec.ofBool b[5] ++ BitVec.ofBool b[6] ++ BitVec.ofBool b[7]

/-- `k` rounds in a row, each applied to the result of the one before: `a(k+1) = round(ak)` (R91, R116). -/
def rounds (round : Byte → Byte) : Nat → Byte → Byte
  | 0, a => a
  | k + 1, a => round (rounds round k a)

/-! The normal convention. -/

/-- `round_n(a, q)` (R90): the test is made on `a` before the shift. -/
def roundN (a q : Byte) : Byte := if a[7] then shl1 a ^^^ q else shl1 a

/-- `byte_n(a, q) = round_n^8(a, q)` (R91). -/
def byteN (a q : Byte) : Byte := rounds (fun x => roundN x q) 8 a

/-- The normal sequential checksum of `M` under polynomial `q`, as the fold of R92 with `q` for `POLY` (R105). -/
def crc8SeqUnder (q : Byte) (M : Message) : Byte := M.foldl (fun acc b => byteN (acc ^^^ b) q) Config.INIT

/-- `crc8_seq_n(M)` (R92). -/
def crc8SeqN (M : Message) : Byte := crc8SeqUnder Config.POLY M

/-- `tbl_n(q)` (R100). -/
def tableN (q : Byte) : Table := fun i => byteN i q

/-- `crc8_tbl(M, T)` (R102), total for every table. -/
def crc8Tbl (M : Message) (T : Table) : Byte := M.foldl (fun acc b => T (acc ^^^ b)) Config.INIT

/-! The reflected convention. -/

/-- `round_r(a, q)` (R115): the test is made on `a` before the shift. -/
def roundR (a q : Byte) : Byte := if a[0] then shr1 a ^^^ q else shr1 a

/-- `byte_r(a, q) = round_r^8(a, q)` (R116). -/
def byteR (a q : Byte) : Byte := rounds (fun x => roundR x q) 8 a

/-- The accumulator of the reflected sequential engine after `M` under the already-reflected polynomial `q` (R117, R119). -/
def accSeqUnderR (q : Byte) (M : Message) : Byte := M.foldl (fun acc b => byteR (acc ^^^ reflect8 b) q) Config.INIT

/-- The reflected sequential checksum of `M` under the already-reflected polynomial `q` (R117 with `q` for `RPOLY`, R131). -/
def crc8SeqUnderR (q : Byte) (M : Message) : Byte := reflect8 (accSeqUnderR q M)

/-- `crc8_seq_r(M)` (R117). -/
def crc8SeqR (M : Message) : Byte := crc8SeqUnderR Config.RPOLY M

/-- `tbl_r(q)` (R125, C3): the index is not reflected before the rounds and the entry is not reflected after them. -/
def tableR (q : Byte) : Table := fun i => byteR i q

/-- The accumulator of the reflected table engine after `M` (R127, R129). -/
def accTblR (M : Message) (T : Table) : Byte := M.foldl (fun acc b => T (acc ^^^ reflect8 b)) Config.INIT

/-- `crc8_tbl_r(M, T)` (R127), total for every table. -/
def crc8TblR (M : Message) (T : Table) : Byte := reflect8 (accTblR M T)

end Sys2Proof.Machine
end

