-- ==== Sys2Proof/Machine/State.lean ====
section
/-! DEFINITION. The state of the block (R29), the events its host causes at the ports (R178), the reasons a step can stop,
and the state after reset (R32). -/

namespace Sys2Proof.Machine

/-- The sequencer phase `PHASE` (R25); it has no binary encoding. -/
inductive Phase where
  | idle
  | msg
  | fault
  deriving DecidableEq, Repr

/-- The three faults of the block (R160). Each is TAKEN by fault entry (R165), which is a next state. -/
inductive FaultKind where
  | illegalCommand
  | illegalDataWord
  | tableNotBuilt
  deriving DecidableEq, Repr

/-- One thing the host does at the ports (R8, R178), log 1. -/
inductive HostEvent where
  | word (w : IoWord)                           -- offers `w` at `IN`
  | rst                                         -- asserts `RST` between two steps (R185)
  | rstDuring (w : IoWord) (emitted : Nat)      -- `RST` lands inside the step on `w`, of whose words the first `emitted` leave (R186)
  | take                                        -- takes the oldest word held at `OUT` (R178)
  deriving DecidableEq, Repr

/-- The contents of a bank: (index, byte) cells, indices strictly rising and below 256, one for each entry written since
the last reset (R22, R23, R40; log 12). -/
abbrev Memory := List Host.Cell

/-- Why the machine stops. -/
inductive Fault where
  /-- Raised by the step, and by every meaning, when `PHASE = FAULT` and the host offers a word, or nothing: the block has
  no step until `RST` (R29, R166, U10; log 3). Safe: the model stops where the block is stuck. -/
  | stuckInFaultPhase
  deriving DecidableEq, Repr

/-- Why an instruction has no meaning. -/
inductive Refusal where
  /-- Raised only by an arm of `exec` that has no meaning yet, of which there is none. Safe: no next state is claimed. -/
  | notModelled (mnemonic : String)
  deriving DecidableEq, Repr

/-- The architectural state (R29) with the ports' words as plain data (log 1, log 7) and the model's own count of resets (log 5). -/
structure State where
  /-- `PHASE` (R25) -/
  phase : Phase
  /-- `OP`, meaningful while `PHASE = MSG` (R26) -/
  op : ChecksumOp
  /-- `ACC` (R20) -/
  acc : Byte
  /-- `TBL_N` (R22) -/
  tblN : Memory
  /-- `TBL_R` (R23) -/
  tblR : Memory
  /-- `TV_N` (R24) -/
  tvN : Bool
  /-- `TV_R` (R24) -/
  tvR : Bool
  /-- `CAUSE` (R28) -/
  cause : BitVec 4
  /-- what the host does next at `IN`, `RST` and `OUT`, first event first (R27, R178; log 1) -/
  input : List HostEvent
  /-- words emitted at `OUT` and not yet taken, oldest first (R64, R178; log 7) -/
  out : List IoWord
  /-- words the host has taken from `OUT`, oldest first (R64, R178; log 7) -/
  taken : List IoWord
  /-- the model's own field: how many `RST` events there have been, the index of the free values (log 5) -/
  resets : Nat
  deriving DecidableEq, Repr

/-- What a meaning answers. -/
abbrev Answer := Host.Outcome State Fault Refusal

/-- The machine right after reset (R32, R185). `acc` and `op`, which the spec leaves unspecified, hold the values log 4
names; no bank entry is listed (log 6); the host has done nothing yet (log 1). -/
def State.reset : State where
  phase := .idle
  op := .crc8s
  acc := 0x00
  tblN := []
  tblR := []
  tvN := false
  tvR := false
  cause := 0
  input := []
  out := []
  taken := []
  resets := 0

end Sys2Proof.Machine
end

