-- ==== Sys2Proof/Machine/Flags.lean ====
section
/-! DEFINITION. The table-valid flags (R24): the block's only flags. -/

namespace Sys2Proof.Machine

/-- The valid flag of a bank: `TV_N` or `TV_R` (R24). -/
def tableValid (b : BankId) (s : State) : Bool :=
  match b with
  | .normal => s.tvN
  | .reflected => s.tvR

/-- Sets the valid flag of a bank, as its build does (R24, R101, R126). -/
def markBuilt (b : BankId) (s : State) : State :=
  match b with
  | .normal => { s with tvN := true }
  | .reflected => { s with tvR := true }

end Sys2Proof.Machine
end

