-- ==== Sys2Proof/Machine/Formats.lean ====
section
/-! DEFINITION. The bit fields of the three word formats (R60 to R63): C, the command word; D, the data word; R, the result word. -/

namespace Sys2Proof.Machine

/-! Format C, the command word (R61). -/

/-- `OPC`, bits 15:12 of a command word. -/
def fieldOPC (w : IoWord) : BitVec 4 := w.extractLsb' 12 4

/-- `CZ`, bits 11:8 of a command word, must be zero. -/
def fieldCZ (w : IoWord) : BitVec 4 := w.extractLsb' 8 4

/-- `IMM8`, bits 7:0 of a command word, used as it stands. -/
def fieldIMM8 (w : IoWord) : Byte := w.extractLsb' 0 8

/-- The command word with the given `OPC` in bits 15:12 and `IMM8` in bits 7:0, and `CZ = 0`. -/
def commandWord (opc : BitVec 4) (imm : Byte) : IoWord := (opc.setWidth 16 <<< 12) ||| imm.setWidth 16

/-! Format D, the data word (R62). -/

/-- `EOM`, bit 15 of a data word. -/
def fieldEOM (w : IoWord) : Bool := w.getLsbD 15

/-- `DZ`, bits 14:8 of a data word, must be zero. -/
def fieldDZ (w : IoWord) : BitVec 7 := w.extractLsb' 8 7

/-- `BYTE`, bits 7:0 of a data word. -/
def fieldBYTE (w : IoWord) : Byte := w.extractLsb' 0 8

/-! Format R, the result word (R63). -/

/-- `ERR`, bit 15 of a result word. -/
def fieldERR (w : IoWord) : Bool := w.getLsbD 15

/-- `LAST`, bit 14 of a result word. -/
def fieldLAST (w : IoWord) : Bool := w.getLsbD 14

/-- `RZ`, bits 13:12 of a result word, always zero. -/
def fieldRZ (w : IoWord) : BitVec 2 := w.extractLsb' 12 2

/-- `CODE`, bits 11:8 of a result word. -/
def fieldCODE (w : IoWord) : BitVec 4 := w.extractLsb' 8 4

/-- `DATA`, bits 7:0 of a result word. -/
def fieldDATA (w : IoWord) : Byte := w.extractLsb' 0 8

/-- `0x0000 | v`: a table entry that is not the last one (R63). -/
def moreWord (v : Byte) : IoWord := 0x0000#16 ||| v.setWidth 16

/-- `0x4000 | v`: a single-byte result, or the last table entry (R63). -/
def lastWord (v : Byte) : IoWord := 0x4000#16 ||| v.setWidth 16

/-- `0xC000 | (code << 8)`: a fault report (R63, R165). -/
def faultWord (code : BitVec 4) : IoWord := 0xC000#16 ||| (code.setWidth 16 <<< 8)

end Sys2Proof.Machine
end

