-- ==== Sys2Proof/Machine/Ops.lean ====
section
/-! DEFINITION. The named operations over the banks, the registers and the ports; taking a fault (R165) and the only way
out of it, reset (R166, R185). -/

namespace Sys2Proof.Machine

/-! Bank contents (R40, R42, R47; log 12). -/

/-- The byte listed at index `a`, if one is. -/
def Memory.read : Memory → Nat → Option Byte
  | [], _ => none
  | (k, x) :: m, a => if a = k then some x else Memory.read m a

/-- Lists `v` at index `a`, keeping the indices rising. -/
def Memory.write : Memory → Nat → Byte → Memory
  | [], a, v => [(a, v)]
  | (k, x) :: m, a, v =>
    if a < k then (a, v) :: (k, x) :: m
    else if a = k then (a, v) :: m
    else (k, x) :: Memory.write m a v

/-- Indices strictly rising, none below `lo`, all below 256. -/
def Memory.risesFrom (lo : Nat) : Memory → Bool
  | [] => true
  | (k, _) :: m => decide (lo ≤ k) && decide (k < 256) && Memory.risesFrom (k + 1) m

/-- The canonical form of a bank's contents: one cell an index, indices rising, all in 0..255 (R40). -/
def Memory.wf (m : Memory) : Bool := Memory.risesFrom 0 m

/-- `MemWrite(i, 1, T[i])` for `i` in 0..255 ascending (R101, R126). Marked irreducible so that no proof
unfolds its 256 writes by accident; `read_fillBank` says what it does. -/
@[irreducible] def fillBank (T : Table) (m : Memory) : Memory :=
  (List.range 256).foldl (fun m i => Memory.write m i (T (BitVec.ofNat 8 i))) m

/-- The contents of a bank. -/
def bankOf (b : BankId) (s : State) : Memory :=
  match b with
  | .normal => s.tblN
  | .reflected => s.tblR

/-- Replaces the contents of a bank. -/
def storeBank (b : BankId) (m : Memory) (s : State) : State :=
  match b with
  | .normal => { s with tblN := m }
  | .reflected => { s with tblR := m }

/-- What an entry reads as that no build has written since the last reset: a free value (R32, U5; log 6). -/
def unlistedEntry (b : BankId) (s : State) (i : Byte) : Byte := Config.unbuiltEntry s.resets b i

/-- `MemRead(TBL_x:i, 1)` (R42). Total: the index is a byte, so it always names a location (R41). -/
def bankRead (b : BankId) (s : State) (i : Byte) : Byte :=
  match Memory.read (bankOf b s) i.toNat with
  | some v => v
  | none => unlistedEntry b s i

/-! The `OUT` port. -/

/-- `emit` for each word of a list in order (R11, R64). -/
def emitAll (ws : List IoWord) (s : State) : State := { s with out := s.out ++ ws }

/-- `emit(w)` (R11, R64). -/
def emit (w : IoWord) (s : State) : State := emitAll [w] s

/-- The host takes the oldest held word (R178); with none held there is nothing to take (log 7). -/
def takeWord (s : State) : State :=
  match s.out with
  | [] => s
  | w :: ws => { s with out := ws, taken := s.taken ++ [w] }

/-! Faults and reset. -/

/-- The code of a fault (R160); codes 0 and 4..15 are never produced (U8). -/
def faultCode : FaultKind → BitVec 4
  | .illegalCommand => 1
  | .illegalDataWord => 2
  | .tableNotBuilt => 3

/-- TAKING AN EXCEPTION: fault entry `raise <Fault>(code)` (R165). Nothing but `CAUSE`, `PHASE` and the one emitted word changes. -/
def raiseFault (k : FaultKind) (s : State) : State :=
  emit (faultWord (faultCode k)) { s with cause := faultCode k, phase := .fault }

/-- THE ONLY RETURN from a fault: `RST` (R166, R185). `ACC`, `OP` and the banks are unspecified afterwards (R32): free values,
a fresh set for each reset (log 5, log 6). It emits nothing and withdraws nothing. -/
def applyReset (s : State) : State :=
  { s with
    phase := .idle
    tvN := false
    tvR := false
    cause := 0
    acc := Config.accAfterReset (s.resets + 1)
    op := Config.opAfterReset (s.resets + 1)
    tblN := []
    tblR := []
    resets := s.resets + 1 }

/-! Commands. -/

/-- A command word is accepted in `PHASE = IDLE` only (R25, R29). In `PHASE = MSG` the same word is an illegal data word
(R192, D21); in `PHASE = FAULT` it is not consumed (R166, U10). Log 11. -/
def whenIdle (s : State) (effect : Answer) : Answer :=
  match s.phase with
  | .idle => effect
  | .msg => .next (raiseFault .illegalDataWord s)
  | .fault => .fault .stuckInFaultPhase

/-- The acceptance of a checksum command word (R93, R103, R118, R128). -/
def startMessage (op : ChecksumOp) (s : State) : State :=
  { s with acc := Config.INIT, op := op, phase := .msg }

/-- The 256 result words of a build, read from the bank, `LAST = 1` on the last only (R64, R101, R126). -/
@[irreducible] def bankWords (b : BankId) (s : State) : List IoWord :=
  (List.range 255).map (fun i => moreWord (bankRead b s (BitVec.ofNat 8 i))) ++ [lastWord (bankRead b s 255)]

/-- A build: write the 256 entries, mark the bank valid, return its entries (R101, R126). -/
def buildBank (b : BankId) (T : Table) (s : State) : State :=
  let t := markBuilt b (storeBank b (fillBank T (bankOf b s)) s)
  emitAll (bankWords b t) t

end Sys2Proof.Machine
end

