-- ==== Sys2Proof/Machine/Operands.lean ====
section
/-! DEFINITION. The operand forms that a command implies (R69 b, c): the byte a message step works on, the bank an engine
reads, the index of a lookup (R41), and the byte a checksum returns. -/

namespace Sys2Proof.Machine

/-- Whether an engine works in the reflected convention (R117, R127). -/
def isReflected : ChecksumOp → Bool
  | .crc8s => false
  | .crc8t => false
  | .crc8sr => true
  | .crc8tr => true

/-- The bank a checksum command reads, implied by its opcode (R23, R69 c); none for the sequential engines. -/
def engineBank : ChecksumOp → Option BankId
  | .crc8s => none
  | .crc8t => some .normal
  | .crc8sr => none
  | .crc8tr => some .reflected

/-- Whether the table an engine needs has been built (R24). -/
def tableReady (op : ChecksumOp) (s : State) : Bool :=
  match engineBank op with
  | none => true
  | some b => tableValid b s

/-- The message byte as the engine uses it: reflected first in the reflected convention (R83, R117, R127). -/
def messageOperand (op : ChecksumOp) (b : Byte) : Byte := if isReflected op then reflect8 b else b

/-- `ACC ^ BYTE` or `ACC ^ reflect8(BYTE)`: what the byte step of an engine starts from (R41, R92, R117). -/
def mixedByte (op : ChecksumOp) (b : Byte) (s : State) : Byte := s.acc ^^^ messageOperand op b

/-- The byte a checksum returns: `ACC`, reflected once in the reflected convention (R83, R117, R127). -/
def checksumResult (op : ChecksumOp) (s : State) : Byte := if isReflected op then reflect8 s.acc else s.acc

/-- The acceptance of a checksum command: `TableNotBuilt` if its table is not built, before anything changes (R163), else the
start of the message. -/
def beginChecksum (op : ChecksumOp) (s : State) : Answer :=
  whenIdle s (.next (if tableReady op s then startMessage op s else raiseFault .tableNotBuilt s))

end Sys2Proof.Machine
end

