-- ==== Sys2Proof/Machine/Reflector.lean ====
section
/-! DEFINITION. The bit reflector's command (40_bit_reflector.md). -/

namespace Sys2Proof.Machine

/-- REFLECT8 `#v` (R81). -/
def execReflect8 (v : Byte) (s : State) : Answer := whenIdle s (.next (emit (lastWord (reflect8 v)) s))

end Sys2Proof.Machine
end

