-- ==== Sys2Proof/Machine/SequentialNormal.lean ====
section
/-! DEFINITION. The sequential engine of the normal convention (41_sequential_normal.md). -/

namespace Sys2Proof.Machine

/-- CRC8S, its command word (R93). -/
def execCrc8s (s : State) : Answer := beginChecksum .crc8s s

/-- CRC8S, what `ACC` becomes at a byte data word: `byte_n(ACC ^ BYTE, POLY)` (R93). -/
def crc8sByte (b : Byte) (s : State) : Byte := byteN (mixedByte .crc8s b s) Config.POLY

end Sys2Proof.Machine
end

