-- ==== Sys2Proof/Machine/SequentialReflected.lean ====
section
/-! DEFINITION. The sequential engine of the reflected convention (43_sequential_reflected.md). -/

namespace Sys2Proof.Machine

/-- CRC8SR, its command word (R118). -/
def execCrc8sr (s : State) : Answer := beginChecksum .crc8sr s

/-- CRC8SR, what `ACC` becomes at a byte data word: `byte_r(ACC ^ reflect8(BYTE), RPOLY)` (R118). -/
def crc8srByte (b : Byte) (s : State) : Byte := byteR (mixedByte .crc8sr b s) Config.RPOLY

end Sys2Proof.Machine
end

