-- ==== Sys2Proof/Machine/TableNormal.lean ====
section
/-! DEFINITION. The table builder and the table-driven engine of the normal convention (42_table_normal.md). -/

namespace Sys2Proof.Machine

/-- BLDT `#q` (R101). The operand is used as it stands and not compared with `POLY` (R105). -/
def execBldt (q : Byte) (s : State) : Answer := whenIdle s (.next (buildBank .normal (tableN q) s))

/-- CRC8T, its command word (R103). -/
def execCrc8t (s : State) : Answer := beginChecksum .crc8t s

/-- CRC8T, what `ACC` becomes at a byte data word: `TBL_N[ACC ^ BYTE]` (R103). -/
def crc8tByte (b : Byte) (s : State) : Byte := bankRead .normal s (mixedByte .crc8t b s)

end Sys2Proof.Machine
end

