-- ==== Sys2Proof/Machine/TableReflected.lean ====
section
/-! DEFINITION. The table builder and the table-driven engine of the reflected convention (44_table_reflected.md). -/

namespace Sys2Proof.Machine

/-- BLDTR `#q` (R126). The operand is the already-reflected polynomial, used as it stands (R126, R131). -/
def execBldtr (q : Byte) (s : State) : Answer := whenIdle s (.next (buildBank .reflected (tableR q) s))

/-- CRC8TR, its command word (R128). -/
def execCrc8tr (s : State) : Answer := beginChecksum .crc8tr s

/-- CRC8TR, what `ACC` becomes at a byte data word: `TBL_R[ACC ^ reflect8(BYTE)]` (R128). -/
def crc8trByte (b : Byte) (s : State) : Byte := bankRead .reflected s (mixedByte .crc8tr b s)

end Sys2Proof.Machine
end

