-- ==== Sys2Proof/Syntax.lean ====
section
/-! DEFINITION. The seven command words of the block, one constructor per row of spec/opcode_table.json (R3, R65). -/

namespace Sys2Proof

/-- A command. The operand of `reflect8`, `bldt` and `bldtr` is the field `IMM8` as it stands (R61, R69 a); the table of
`crc8t` and `crc8tr` and the polynomial of `crc8s` and `crc8sr` are implied by the operation (R69 c, d). -/
inductive Instr where
  | reflect8 (v : Byte)
  | crc8s
  | bldt (q : Byte)
  | crc8t
  | crc8sr
  | bldtr (q : Byte)
  | crc8tr
  deriving DecidableEq, Repr

end Sys2Proof
end

