-- ==== Sys2Proof/Machine/Dispatch.lean ====
section
/-! DEFINITION. The meaning of every command, arm by arm (R65). -/

namespace Sys2Proof.Machine

def exec (i : Instr) (s : State) : Host.Outcome State Fault Refusal :=
  match i with
  | .reflect8 v => Sys2Proof.Machine.execReflect8 v s
  | .crc8s => Sys2Proof.Machine.execCrc8s s
  | .bldt q => Sys2Proof.Machine.execBldt q s
  | .crc8t => Sys2Proof.Machine.execCrc8t s
  | .crc8sr => Sys2Proof.Machine.execCrc8sr s
  | .bldtr q => Sys2Proof.Machine.execBldtr q s
  | .crc8tr => Sys2Proof.Machine.execCrc8tr s

end Sys2Proof.Machine
end

