-- ==== Sys2Proof/WellFormed.lean ====
section
/-! DEFINITION. Which words are legal in each phase (R61, R62, R66), one named check for each way a word can be illegal,
and which commands are well formed. Written from the rules' conditions, apart from the decoder. -/

namespace Sys2Proof

open Sys2Proof.Machine

/-- The check `w[15:12] in 1..7` (R61, R67). -/
def opcAssigned (w : IoWord) : Bool := 1 ≤ (fieldOPC w).toNat && (fieldOPC w).toNat ≤ 7

/-- The check `w[11:8] = 0` (R61, R67). -/
def czIsZero (w : IoWord) : Bool := fieldCZ w == 0

/-- The check that `IMM8` is zero where `OPC` is 2, 4, 5 or 7 (R61, R67). -/
def immZeroWhereRequired (w : IoWord) : Bool :=
  !(fieldOPC w == 2 || fieldOPC w == 4 || fieldOPC w == 5 || fieldOPC w == 7) || fieldIMM8 w == 0

/-- A word that is legal as a command (R65, R66). -/
def legalCommandWord (w : IoWord) : Bool := opcAssigned w && czIsZero w && immZeroWhereRequired w

/-- The check `w[14:8] = 0` (R62, R67). -/
def dzIsZero (w : IoWord) : Bool := fieldDZ w == 0

/-- The check that `BYTE` is zero when `EOM = 1` (R62, R67). -/
def byteZeroAtEnd (w : IoWord) : Bool := !fieldEOM w || fieldBYTE w == 0

/-- A word that is legal as data (R62, R66). -/
def legalDataWord (w : IoWord) : Bool := dzIsZero w && byteZeroAtEnd w

/-- Well-formed commands. Every value of an operand byte is allowed (R61) and no other field is carried by the syntax, so
the type of the operand is the whole check; the checks that can fail are those on words above. -/
def Instr.wf : Instr → Bool
  | .reflect8 _ => true
  | .crc8s => true
  | .bldt _ => true
  | .crc8t => true
  | .crc8sr => true
  | .bldtr _ => true
  | .crc8tr => true

end Sys2Proof
end

