-- ==== Sys2Proof/Decode.lean ====
section
/-! DEFINITION. Decoding and encoding of command words and data words (R60 to R69), and the opcode map as the spec prints it (R65). -/

namespace Sys2Proof

open Sys2Proof.Machine

/-- Why a word is no legal command, in the order of the tests of R67. -/
inductive CommandError where
  | unassignedOPC   -- `OPC` is not in 1..7
  | nonzeroCZ       -- `CZ` is not zero
  | nonzeroIMM8     -- `IMM8` is not zero on an operation without an operand
  deriving DecidableEq, Repr

/-- A legal data word (R62): the next byte of the message, or its end. -/
inductive DataWord where
  | byte (b : Byte)
  | endOfMessage
  deriving DecidableEq, Repr

/-- Why a word is no legal data word, in the order of the tests of R67. -/
inductive DataError where
  | nonzeroDZ       -- `DZ` is not zero
  | nonzeroBYTE     -- `BYTE` is not zero in an end-of-message word
  deriving DecidableEq, Repr

/-- The row of an operation whose operand is `IMM8` (R61): only `CZ` is checked. -/
def withOperand (w : IoWord) (row : Byte → Instr) : Except CommandError Instr :=
  if fieldCZ w ≠ 0 then .error .nonzeroCZ else .ok (row (fieldIMM8 w))

/-- The row of an operation without an operand (R61): `CZ`, then `IMM8`, must be zero. -/
def withoutOperand (w : IoWord) (row : Instr) : Except CommandError Instr :=
  if fieldCZ w ≠ 0 then .error .nonzeroCZ
  else if fieldIMM8 w ≠ 0 then .error .nonzeroIMM8
  else .ok row

/-- The command a word decodes to in `PHASE = IDLE` (R65, R67), total on every word. -/
def decode (w : IoWord) : Except CommandError Instr :=
  match (fieldOPC w).toNat with
  | 1 => withOperand w .reflect8
  | 2 => withoutOperand w .crc8s
  | 3 => withOperand w .bldt
  | 4 => withoutOperand w .crc8t
  | 5 => withoutOperand w .crc8sr
  | 6 => withOperand w .bldtr
  | 7 => withoutOperand w .crc8tr
  | _ => .error .unassignedOPC

/-- What a word means in `PHASE = MSG` (R62, R67), total on every word. -/
def decodeData (w : IoWord) : Except DataError DataWord :=
  if fieldDZ w ≠ 0 then .error .nonzeroDZ
  else if fieldEOM w then
    if fieldBYTE w ≠ 0 then .error .nonzeroBYTE else .ok .endOfMessage
  else .ok (.byte (fieldBYTE w))

/-- The command word of an instruction (R61, R65). -/
def encode : Instr → IoWord
  | .reflect8 v => commandWord 0x1 v
  | .crc8s => commandWord 0x2 0x00
  | .bldt q => commandWord 0x3 q
  | .crc8t => commandWord 0x4 0x00
  | .crc8sr => commandWord 0x5 0x00
  | .bldtr q => commandWord 0x6 q
  | .crc8tr => commandWord 0x7 0x00

/-- The data word of a message byte, `0x0000 | b`, or of the end of the message, `0x8000` (R62). -/
def encodeData : DataWord → IoWord
  | .byte b => 0x0000#16 ||| b.setWidth 16
  | .endOfMessage => 0x8000

/-- A row of the opcode map of R65 as the spec prints it. -/
structure OpcodeRow where
  mnemonic : String
  pattern : IoWord
  mask : IoWord
  deriving DecidableEq, Repr

/-- The opcode map of R65, its `match` and `mask` columns. -/
def opcodeMap : List OpcodeRow :=
  [⟨"REFLECT8", 0x1000, 0xFF00⟩, ⟨"CRC8S", 0x2000, 0xFFFF⟩, ⟨"BLDT", 0x3000, 0xFF00⟩, ⟨"CRC8T", 0x4000, 0xFFFF⟩,
   ⟨"CRC8SR", 0x5000, 0xFFFF⟩, ⟨"BLDTR", 0x6000, 0xFF00⟩, ⟨"CRC8TR", 0x7000, 0xFFFF⟩]

/-- A word matches a row when `(w & mask) == match` (R65). -/
def OpcodeRow.accepts (r : OpcodeRow) (w : IoWord) : Bool := w &&& r.mask == r.pattern

/-- The mnemonic of an instruction (R3, R65). -/
def mnemonicOf : Instr → String
  | .reflect8 _ => "REFLECT8"
  | .crc8s => "CRC8S"
  | .bldt _ => "BLDT"
  | .crc8t => "CRC8T"
  | .crc8sr => "CRC8SR"
  | .bldtr _ => "BLDTR"
  | .crc8tr => "CRC8TR"

/-- The instruction the decoder reads from a word whose bits are `w`, numbered as spec/opcode_table.json numbers them. An
`IN` word is transferred whole (R45), so no byte order enters; bits above `nbits` are zero, and a number that does not fit
the one word of a command (R60) is none (log 9). -/
def decodeTableWord (nbits w : Nat) : Option Instr :=
  if 16 < nbits || 65536 ≤ w then none
  else
    match decode (BitVec.ofNat 16 (w % 2 ^ nbits)) with
    | .ok i => some i
    | .error _ => none

end Sys2Proof
end

