-- ==== Sys2Proof/Machine/MessageStep.lean ====
section
/-! DEFINITION. The data-word steps of the four checksum commands, chosen by `OP` (R26, R29, R67). -/

namespace Sys2Proof.Machine

/-- What `ACC` becomes at the message byte `b` (R93, R103, R118, R128). -/
def accAfterByte (b : Byte) (s : State) : Byte :=
  match s.op with
  | .crc8s => crc8sByte b s
  | .crc8t => crc8tByte b s
  | .crc8sr => crc8srByte b s
  | .crc8tr => crc8trByte b s

/-- The byte step of `OP`: only `ACC` changes and nothing is emitted. -/
def byteStep (b : Byte) (s : State) : State := { s with acc := accAfterByte b s }

/-- The end-of-message step of `OP`: one result word, back to `IDLE`; `ACC` keeps its (unreflected) value. -/
def endMessage (s : State) : State := emit (lastWord (checksumResult s.op s)) { s with phase := .idle }

/-- The step on a legal data word in `PHASE = MSG` (R67). -/
def execData (d : DataWord) (s : State) : State :=
  match d with
  | .byte b => byteStep b s
  | .endOfMessage => endMessage s

end Sys2Proof.Machine
end

