-- ==== Sys2Proof/Machine/Consume.lean ====
section
/-! DEFINITION. What the block does at the next event of its host (R29, R178): consuming an `IN` word, a reset between steps
(R185) or inside one (R186), an `OUT` word being taken, and waiting. -/

namespace Sys2Proof.Machine

/-- `w` read as a command word, in the decode order of R67. -/
def commandStep (w : IoWord) (s : State) : Answer :=
  match decode w with
  | .ok i => exec i s
  | .error _ => .next (raiseFault .illegalCommand s)

/-- `w` read as a data word, in the decode order of R67. -/
def dataStep (w : IoWord) (s : State) : Answer :=
  match decodeData w with
  | .ok d => .next (execData d s)
  | .error _ => .next (raiseFault .illegalDataWord s)

/-- The step on the word `w` (R29): `PHASE` alone decides how it is read (R60). In `PHASE = FAULT` there is none (R166, U10). -/
def consumeWord (w : IoWord) (s : State) : Answer :=
  match s.phase with
  | .idle => commandStep w s
  | .msg => dataStep w s
  | .fault => .fault .stuckInFaultPhase

/-- `RST` inside the step on `w` (R186, log 8): of the words the step lists only the first `emitted` leave the block, and the
state is the reset state whatever the step had done. In `PHASE = FAULT` no step can be under way: `w` stays offered. -/
def resetDuring (w : IoWord) (emitted : Nat) (s : State) : Answer :=
  match consumeWord w { s with out := [] } with
  | .next t => .next (applyReset (emitAll (t.out.take emitted) s))
  | .fault _ => .next (applyReset { s with input := .word w :: s.input })
  | .refused r => .refused r

/-- Nothing is offered: the block waits and all its state survives (R180, R192, U20; log 2), but in `PHASE = FAULT` it is
stuck until `RST` (R166; log 3). -/
def waitForHost (s : State) : Answer :=
  match s.phase with
  | .idle => .next s
  | .msg => .next s
  | .fault => .fault .stuckInFaultPhase

/-- One event of the host. -/
def hostEventStep (e : HostEvent) (s : State) : Answer :=
  match e with
  | .word w => consumeWord w s
  | .rst => .next (applyReset s)
  | .rstDuring w emitted => resetDuring w emitted s
  | .take => .next (takeWord s)

/-- The next event of the host is removed from its timeline and the block answers it. -/
def advance (s : State) : Answer :=
  match s.input with
  | [] => waitForHost s
  | e :: rest => hostEventStep e { s with input := rest }

/-- `s` with the word `w` offered next and read as a command, so that the very next step consumes it (log 10). -/
def offerCommand (w : IoWord) (s : State) : State := { s with phase := .idle, input := .word w :: s.input }

end Sys2Proof.Machine
end

