-- ==== Sys2Proof/Machine/Step.lean ====
section
/-! DEFINITION. One step of the machine (R29). -/

namespace Sys2Proof.Machine

/-- One step: the block answers the next event of its host. -/
def step (s : State) : Host.Outcome State Fault Refusal := advance s

/-- `s` with the command word whose bits are `w` offered at `IN` before everything else, in `PHASE = IDLE` (log 10). -/
def State.withFetchWord (s : State) (nbits w : Nat) : State := offerCommand (BitVec.ofNat 16 (w % 2 ^ nbits)) s

end Sys2Proof.Machine
end

