-- ==== Sys2Proof/Machine/Assembler.lean ====
section
/-! DEFINITION. The line notation of host programs (R70, R71): what each line, read, puts at the ports. Its text form, with
`;` comments and number spellings, is not modelled (log 14). -/

namespace Sys2Proof.Machine

/-- A line of a host program (R70) or a pseudo-instruction (R71). -/
inductive AsmLine where
  | command (i : Instr)                              -- `REFLECT8 #v`, `CRC8S`, `BLDT #q`, `CRC8T`, `CRC8SR`, `BLDTR #q`, `CRC8TR`
  | byte (v : Byte)                                  -- `.byte v`
  | eom                                              -- `.eom`
  | word (w : IoWord)                                -- `.word w`
  | reset                                            -- `RESET`
  | bldtp                                            -- `BLDTP`
  | bldtrp                                           -- `BLDTRP`
  | msg (M : Message)                                -- `.msg b0, …, bk`, or `.msg`
  | ascii (text : List (BitVec 7))                   -- `.ascii "text"`, each character as its 7-bit ASCII code
  | checksum (op : ChecksumOp) (M : Message)         -- `CRC8S b0, …, bk` and the same for the other three
  deriving DecidableEq, Repr

/-- The command that starts a checksum operation (R26, R65). -/
def checksumCommand : ChecksumOp → Instr
  | .crc8s => .crc8s
  | .crc8t => .crc8t
  | .crc8sr => .crc8sr
  | .crc8tr => .crc8tr

/-- The host offers the word of a command. -/
def offer (i : Instr) : HostEvent := .word (encode i)

/-- A message as the host sends it: one word for each byte, in order, then the end-of-message word (R62). -/
def messageEvents (M : Message) : List HostEvent :=
  M.map (fun b => .word (encodeData (.byte b))) ++ [.word (encodeData .endOfMessage)]

/-- A checksum operation as the host sends it: its command word, then its message (R62, R71). -/
def checksumEvents (op : ChecksumOp) (M : Message) : List HostEvent :=
  offer (checksumCommand op) :: messageEvents M

/-- What a line puts at the ports (R70), a pseudo-instruction by its expansion (R71). -/
def AsmLine.events : AsmLine → List HostEvent
  | .command i => [offer i]
  | .byte v => [.word (encodeData (.byte v))]
  | .eom => [.word (encodeData .endOfMessage)]
  | .word w => [.word w]
  | .reset => [.rst]
  | .bldtp => [offer (.bldt Config.POLY)]
  | .bldtrp => [offer (.bldtr Config.RPOLY)]
  | .msg M => messageEvents M
  | .ascii text => messageEvents (text.map (fun c => c.setWidth 8))
  | .checksum op M => checksumEvents op M

/-- What a host program puts at the ports, line after line. -/
def assemble (lines : List AsmLine) : List HostEvent := lines.flatMap AsmLine.events

end Sys2Proof.Machine
end

