-- ==== Sys2Proof/Machine/HostView.lean ====
section
/-! DEFINITION. The host's side of the ports: how it reads a result word (R72), how it cuts the `OUT` sequence into results
(R64), and the operations of the function level with the words each returns (R18, R64, R187). -/

namespace Sys2Proof.Machine

/-- What an `OUT` word tells the host (R72). -/
inductive HostReading where
  | faulted (cause : BitVec 4)
  | resultByte (v : Byte) (complete : Bool)
  deriving DecidableEq, Repr

/-- How a host decodes an `OUT` word (R72). -/
def readResult (r : IoWord) : HostReading :=
  if fieldERR r then .faulted (fieldCODE r) else .resultByte (fieldDATA r) (fieldLAST r)

/-- The `OUT` sequence cut after every word with `LAST = 1` (R64); `open_` are the words since the last cut. A tail without
such a word is no result yet. -/
def cutResultsFrom (open_ : List IoWord) : List IoWord → List (List IoWord)
  | [] => []
  | w :: ws => if fieldLAST w then (open_ ++ [w]) :: cutResultsFrom [] ws else cutResultsFrom (open_ ++ [w]) ws

/-- The per-operation results a host reads off the `OUT` sequence (R64). -/
def cutResults (ws : List IoWord) : List (List IoWord) := cutResultsFrom [] ws

/-- The 256 words that carry a table, entry 0 first, `LAST = 1` on entry 255 (R64, R104, R129). -/
@[irreducible] def tableWords (T : Table) : List IoWord :=
  (List.range 255).map (fun i => moreWord (T (BitVec.ofNat 8 i))) ++ [lastWord (T 255)]

/-- One complete operation of the function level (R3, R18). -/
inductive Operation where
  | reflect (v : Byte)
  | build (b : BankId) (q : Byte)
  | checksum (op : ChecksumOp) (M : Message)
  deriving DecidableEq, Repr

/-- What the host sends for an operation (R62, R65). -/
def Operation.events : Operation → List HostEvent
  | .reflect v => [offer (.reflect8 v)]
  | .build .normal q => [offer (.bldt q)]
  | .build .reflected q => [offer (.bldtr q)]
  | .checksum op M => checksumEvents op M

/-- The polynomials of the most recent builds since reset, if there were any (R24, R34). -/
structure Builds where
  normal : Option Byte
  reflected : Option Byte
  deriving DecidableEq, Repr

/-- The builds after an operation. -/
def Operation.buildsAfter (o : Operation) (p : Builds) : Builds :=
  match o with
  | .reflect _ => p
  | .build .normal q => { p with normal := some q }
  | .build .reflected q => { p with reflected := some q }
  | .checksum _ _ => p

/-- The words an operation returns by the functions alone (R18): `none` where the host has not met its boot duty of building
the table first (R187). -/
def Operation.words (o : Operation) (p : Builds) : Option (List IoWord) :=
  match o with
  | .reflect v => some [lastWord (reflect8 v)]
  | .build .normal q => some (tableWords (tableN q))
  | .build .reflected q => some (tableWords (tableR q))
  | .checksum .crc8s M => some [lastWord (crc8SeqN M)]
  | .checksum .crc8t M => p.normal.map (fun q => [lastWord (crc8Tbl M (tableN q))])
  | .checksum .crc8sr M => some [lastWord (crc8SeqR M)]
  | .checksum .crc8tr M => p.reflected.map (fun q => [lastWord (crc8TblR M (tableR q))])

/-- The results of a session of operations by the functions alone, one list of words an operation (R64, R187). -/
def sessionResults : List Operation → Builds → Option (List (List IoWord))
  | [], _ => some []
  | o :: os, p =>
    match o.words p, sessionResults os (o.buildsAfter p) with
    | some ws, some rs => some (ws :: rs)
    | _, _ => none

/-- The builds after a session of operations. -/
def sessionBuilds (os : List Operation) (p : Builds) : Builds := os.foldl (fun p o => o.buildsAfter p) p

/-- What the host sends for a session. -/
def sessionEvents (os : List Operation) : List HostEvent := os.flatMap Operation.events

end Sys2Proof.Machine
end

