-- ==== Sys2Proof/Safety.lean ====
section
/-! DEFINITION. The terms claims are stated in: the invariants of R34, how a run ended (R194), what the host can observe
(R29, R32, R33), and the shape of result words (R63). -/

namespace Sys2Proof.Machine

/-- The next state of an answer, if it is one. -/
def nextState? : Answer → Option State
  | .next t => some t
  | .fault _ => none
  | .refused _ => none

/-- `k` steps of the machine, stopping at the first stop. -/
def runSteps : Nat → State → Answer
  | 0, s => .next s
  | k + 1, s =>
    match step s with
    | .next t => runSteps k t
    | .fault r => .fault r
    | .refused r => .refused r

/-- A bank holds the table `T`: every entry reads as `T` gives it. -/
def BankHolds (b : BankId) (T : Table) (s : State) : Prop := ∀ i, bankRead b s i = T i

/-- Both banks are in canonical form (R40; log 12). -/
def BanksCanonical (s : State) : Prop := Memory.wf s.tblN = true ∧ Memory.wf s.tblR = true

/-- No bank is half built: nothing is listed in a bank whose valid flag is 0 (R24, R47). -/
def NoHalfBuiltBank (s : State) : Prop := (s.tvN = false → s.tblN = []) ∧ (s.tvR = false → s.tblR = [])

/-- R34 (a), (b): a valid bank holds the table of one polynomial. -/
def ValidBanksAreTables (s : State) : Prop :=
  (s.tvN = true → ∃ q, BankHolds .normal (tableN q) s) ∧ (s.tvR = true → ∃ q, BankHolds .reflected (tableR q) s)

/-- R34 (c): a table engine at work has its table. -/
def EngineHasTable (s : State) : Prop :=
  (s.phase = .msg ∧ s.op = .crc8t → s.tvN = true) ∧ (s.phase = .msg ∧ s.op = .crc8tr → s.tvR = true)

/-- R34 (d): `PHASE = FAULT` if and only if `CAUSE != 0`. -/
def CauseMatchesPhase (s : State) : Prop := s.phase = .fault ↔ s.cause ≠ 0

/-- R34 (e): entry 0 of a valid bank is 0. -/
def EntryZeroIsZero (s : State) : Prop :=
  (s.tvN = true → bankRead .normal s 0 = 0) ∧ (s.tvR = true → bankRead .reflected s 0 = 0)

/-- The invariants (a) to (e) of R34. -/
structure RuleInv (s : State) : Prop where
  tables : ValidBanksAreTables s
  engine : EngineHasTable s
  cause : CauseMatchesPhase s
  entryZero : EntryZeroIsZero s

/-- `CAUSE` holds a code that is produced: 0 to 3 (R160, U8). -/
def CauseIsProduced (s : State) : Prop := s.cause.toNat ≤ 3

/-- The invariant of the machine: R34, the canonical form of the banks, no half-built bank, and a produced cause. -/
structure MachineInv (s : State) : Prop where
  rule : RuleInv s
  canonical : BanksCanonical s
  whole : NoHalfBuiltBank s
  produced : CauseIsProduced s

/-- How a run ended (R194). -/
inductive RunEnd where
  | endedWell
  | incomplete
  | failed
  deriving DecidableEq, Repr

/-- In `PHASE = FAULT` the block can go no further: the host's next event is none, or a word, which is never consumed (R166,
R194). With a reset or the taking of an emitted word next, the run goes on.It does not ask whether words are
still held at `OUT` (DESIGN CHOICE, log 15). -/
def faultIsFinal (s : State) : Bool :=
  match s.input with
  | [] => true
  | .word _ :: _ => true
  | .rst :: _ => false
  | .rstDuring _ _ :: _ => false
  | .take :: _ => false

/-- The end of a run (R194), none while it goes on: a complete run ended well in `IDLE` and is incomplete in `MSG`; a run failed
in `PHASE = FAULT` once no further event is answered.

DESIGN CHOICE (log 15), where the host stops taking words, of which R194 says nothing: in `IDLE` and `MSG` a run with words
still held at `OUT` has no end, in `FAULT` it has failed although words, the fault word among them, are still held. -/
def runEnd (s : State) : Option RunEnd :=
  match s.phase with
  | .fault => if faultIsFinal s then some .failed else none
  | .idle => if s.input = [] ∧ s.out = [] then some .endedWell else none
  | .msg => if s.input = [] ∧ s.out = [] then some .incomplete else none

/-- The run of these events of the host, from the reset state, ended so (R194). -/
def RunEndsAs (events : List HostEvent) (e : RunEnd) : Prop :=
  ∃ k t, runSteps k { State.reset with input := events } = .next t ∧ runEnd t = some e

/-- The whole `OUT` sequence so far: what the host has taken, then what is held (R64, R178). -/
def outSequence (s : State) : List IoWord := s.taken ++ s.out

/-- The block is in the reset state as far as the spec fixes it (R32, R185). -/
def InResetState (s : State) : Prop := s.phase = .idle ∧ s.tvN = false ∧ s.tvR = false ∧ s.cause = 0

/-- The field conditions under which a command word is illegal, as R161 lists them. -/
def BadCommandFields (w : IoWord) : Prop :=
  ¬ (1 ≤ (fieldOPC w).toNat ∧ (fieldOPC w).toNat ≤ 7) ∨ fieldCZ w ≠ 0 ∨
  ((fieldOPC w = 2 ∨ fieldOPC w = 4 ∨ fieldOPC w = 5 ∨ fieldOPC w = 7) ∧ fieldIMM8 w ≠ 0)

/-- The field conditions under which a data word is illegal, as R162 lists them. -/
def BadDataFields (w : IoWord) : Prop := fieldDZ w ≠ 0 ∨ (fieldEOM w = true ∧ fieldBYTE w ≠ 0)

/-- `s` after fault entry with `code` as R165 writes it out. -/
def faulted (code : BitVec 4) (s : State) : State :=
  { s with cause := code, phase := .fault, out := s.out ++ [0xC000#16 ||| (code.setWidth 16 <<< 8)] }

/-- The banks hold the tables of the given builds, valid (R24, R34). -/
def HoldsBuilds (p : Builds) (s : State) : Prop :=
  (∀ q, p.normal = some q → s.tvN = true ∧ BankHolds .normal (tableN q) s) ∧
  (∀ q, p.reflected = some q → s.tvR = true ∧ BankHolds .reflected (tableR q) s)

/-- The operands of the most recent builds since the last reset, after the host's next event (R34): BLDT and BLDTR read as
commands, and the resets. -/
def buildsAfterEvent (s : State) (p : Builds) : Builds :=
  match s.input with
  | [] => p
  | .take :: _ => p
  | .rst :: _ => ⟨none, none⟩
  | .rstDuring _ _ :: _ => ⟨none, none⟩
  | .word w :: _ =>
    if s.phase = .idle then
      match decode w with
      | .ok (.bldt q) => { p with normal := some q }
      | .ok (.bldtr q) => { p with reflected := some q }
      | _ => p
    else p

/-- The operands of the most recent builds after `k` steps of a run from `s`. -/
def runBuilds : Nat → State → Builds → Builds
  | 0, _, p => p
  | k + 1, s, p =>
    match step s with
    | .next t => runBuilds k t (buildsAfterEvent s p)
    | .fault _ => p
    | .refused _ => p

/-- The shapes of result words (R63): a data result, or a report of one of the three faults. -/
def ResultShape (w : IoWord) : Prop :=
  fieldRZ w = 0 ∧
  (fieldERR w = false → fieldCODE w = 0) ∧
  (fieldERR w = true → fieldLAST w = true ∧ fieldDATA w = 0 ∧ (fieldCODE w = 1 ∨ fieldCODE w = 2 ∨ fieldCODE w = 3))

/-- Two states no host can tell apart (R32, R33): equal in everything the spec lets a rule observe. `ACC` and `OP` count
only in `PHASE = MSG`, a bank only when its valid flag is 1. -/
structure Alike (s t : State) : Prop where
  phase : s.phase = t.phase
  cause : s.cause = t.cause
  tvN : s.tvN = t.tvN
  tvR : s.tvR = t.tvR
  input : s.input = t.input
  out : s.out = t.out
  taken : s.taken = t.taken
  acc : s.phase = .msg → s.acc = t.acc
  op : s.phase = .msg → s.op = t.op
  bankN : s.tvN = true → ∀ i, bankRead .normal s i = bankRead .normal t i
  bankR : s.tvR = true → ∀ i, bankRead .reflected s i = bankRead .reflected t i

end Sys2Proof.Machine
end

