-- ==== Sys2Proof/Certificates/Slice0/Obligations.lean ====
section
/-! DEFINITION. The statements for the provers. Each names the rule of spec/ it formalises. -/

open Sys2Proof Sys2Proof.Machine

/-! ## Encoding -/

/-- R61, R62, R65: decoding an encoded command or data word gives it back, and a word that decodes is the encoding of what
it decodes to, so every legal word has one meaning and no bit is dropped. -/
def Obligations.DecodeEncodeRoundTrip : Prop :=
  (∀ i : Instr, i.wf = true → decode (encode i) = .ok i) ∧
  (∀ (w : IoWord) (i : Instr), decode w = .ok i → encode i = w) ∧
  (∀ d : DataWord, decodeData (encodeData d) = .ok d) ∧
  (∀ (w : IoWord) (d : DataWord), decodeData w = .ok d → encodeData d = w)

/-- R65: the rows of the opcode map are disjoint, a word that decodes matches the row of its mnemonic, and a word that
matches a row decodes to an instruction of that row. -/
def Obligations.DecodeFollowsOpcodeMap : Prop :=
  ∀ w : IoWord,
    (∀ r ∈ opcodeMap, ∀ r' ∈ opcodeMap, r.accepts w = true → r'.accepts w = true → r = r') ∧
    (∀ i, decode w = .ok i → ∃ r ∈ opcodeMap, r.accepts w = true ∧ r.mnemonic = mnemonicOf i) ∧
    (∀ r ∈ opcodeMap, r.accepts w = true → ∃ i, decode w = .ok i ∧ mnemonicOf i = r.mnemonic)

/-- R65, R62 and 95_test_vectors.md section 3.7: exactly 772 words are legal commands, exactly 257 are legal data words, and
none is both. -/
def Obligations.LegalWordCounts : Prop :=
  (∃ ws : List IoWord, ws.Nodup ∧ ws.length = 772 ∧ ∀ w, w ∈ ws ↔ legalCommandWord w = true) ∧
  (∃ ws : List IoWord, ws.Nodup ∧ ws.length = 257 ∧ ∀ w, w ∈ ws ↔ legalDataWord w = true) ∧
  (∀ w : IoWord, legalCommandWord w = true → legalDataWord w = false)

/-- R61, R62, R66: the decoder accepts exactly the words the field checks call legal. -/
def Obligations.DecoderAcceptsLegalWords : Prop :=
  ∀ w : IoWord,
    (legalCommandWord w = true ↔ ∃ i, decode w = .ok i) ∧ (legalDataWord w = true ↔ ∃ d, decodeData w = .ok d)

/-- 95_test_vectors.md section 3.7: words the spec decodes, bit for bit. -/
def Obligations.SpecWordsDecode : Prop :=
  decode 0b0001000010011011 = .ok (.reflect8 0x9B) ∧ decode 0b0010000000000000 = .ok .crc8s ∧
  decode 0b0011000010011011 = .ok (.bldt 0x9B) ∧ decode 0b0100000000000000 = .ok .crc8t ∧
  decode 0b0101000000000000 = .ok .crc8sr ∧ decode 0b0110000011011001 = .ok (.bldtr 0xD9) ∧
  decode 0b0111000000000000 = .ok .crc8tr ∧ decode 0x2100 = .error .nonzeroCZ ∧
  decode 0x2001 = .error .nonzeroIMM8 ∧ decode 0x0000 = .error .unassignedOPC ∧
  decode 0x8000 = .error .unassignedOPC ∧ decodeData 0x00FF = .ok (.byte 0xFF) ∧
  decodeData 0x8000 = .ok .endOfMessage ∧ decodeData 0x0100 = .error .nonzeroDZ ∧
  decodeData 0x8001 = .error .nonzeroBYTE

/-! ## Datapath -/

/-- R13, R14: the two shifts, bit by bit and as numbers. -/
def Obligations.ShiftsTruncate : Prop :=
  ∀ a : Byte,
    (shl1 a).getLsbD 0 = false ∧ (∀ i, 1 ≤ i → i ≤ 7 → (shl1 a).getLsbD i = a.getLsbD (i - 1)) ∧
    (shl1 a).toNat = 2 * a.toNat % 256 ∧
    (shr1 a).getLsbD 7 = false ∧ (∀ i, i ≤ 6 → (shr1 a).getLsbD i = a.getLsbD (i + 1)) ∧
    (shr1 a).toNat = a.toNat / 2

/-- R80: bit `i` of the reflection is bit `7 - i` of the byte. -/
def Obligations.ReflectorReversesBits : Prop :=
  ∀ (b : Byte) (i : Nat), i ≤ 7 → (reflect8 b).getLsbD i = b.getLsbD (7 - i)

/-- R82 (a) to (f). -/
def Obligations.ReflectorLaws : Prop :=
  (∀ b, reflect8 (reflect8 b) = b) ∧
  ((∀ a b, reflect8 (a ^^^ b) = reflect8 a ^^^ reflect8 b) ∧ reflect8 0x00 = 0x00) ∧
  (∀ a, reflect8 (shl1 a) = shr1 (reflect8 a) ∧ reflect8 (shr1 a) = shl1 (reflect8 a)) ∧
  (∀ a, a.getLsbD 7 = (reflect8 a).getLsbD 0 ∧ a.getLsbD 0 = (reflect8 a).getLsbD 7) ∧
  (∀ b, reflect8 b = b ↔ b ∈ [(0x00 : Byte), 0x18, 0x24, 0x3C, 0x42, 0x5A, 0x66, 0x7E, 0x81, 0x99, 0xA5, 0xBD, 0xC3, 0xDB, 0xE7, 0xFF]) ∧
  (reflect8 Config.POLY = Config.RPOLY ∧ reflect8 0x9B = 0xD9 ∧ reflect8 0xD9 = 0x9B)

/-- R90, R115: each bit of a round, in terms of the bit that is tested and discarded. -/
def Obligations.RoundsBitByBit : Prop :=
  ∀ a q : Byte,
    (roundN a q).getLsbD 0 = (a.getLsbD 7 && q.getLsbD 0) ∧
    (∀ i, 1 ≤ i → i ≤ 7 → (roundN a q).getLsbD i = (a.getLsbD (i - 1) ^^ (a.getLsbD 7 && q.getLsbD i))) ∧
    (roundR a q).getLsbD 7 = (a.getLsbD 0 && q.getLsbD 7) ∧
    (∀ i, i ≤ 6 → (roundR a q).getLsbD i = (a.getLsbD (i + 1) ^^ (a.getLsbD 0 && q.getLsbD i)))

/-- R91, R116: a byte step is exactly eight rounds; it keeps 0, and the byte whose one bit is discarded last gives `q`. -/
def Obligations.ByteStepIsEightRounds : Prop :=
  ∀ a q : Byte,
    byteN a q = roundN (roundN (roundN (roundN (roundN (roundN (roundN (roundN a q) q) q) q) q) q) q) q ∧
    byteR a q = roundR (roundR (roundR (roundR (roundR (roundR (roundR (roundR a q) q) q) q) q) q) q) q ∧
    byteN 0x00 q = 0x00 ∧ byteN 0x01 q = q ∧ byteR 0x00 q = 0x00 ∧ byteR 0x80 q = q

/-- R142, R143: the round mirror and the byte mirror, for all bytes. -/
def Obligations.RoundAndByteMirror : Prop :=
  ∀ a q : Byte,
    roundR (reflect8 a) (reflect8 q) = reflect8 (roundN a q) ∧
    byteR (reflect8 a) (reflect8 q) = reflect8 (byteN a q)

/-- R130: the two tables are mirror images; they hold different bytes at index 1 and agree at 0. -/
def Obligations.TablesAreMirrorImages : Prop :=
  (∀ q i : Byte, tableR (reflect8 q) i = reflect8 (tableN q (reflect8 i))) ∧
  (∀ i : Byte, tableR 0xD9 i = reflect8 (tableN 0x9B (reflect8 i))) ∧
  tableN 0x9B 1 = 0x9B ∧ tableR 0xD9 1 = 0xD0 ∧ tableN 0x9B 0 = 0x00 ∧ tableR 0xD9 0 = 0x00

/-- R90, R91 and 95_test_vectors.md section 2.2: with an odd polynomial the normal byte step is invertible, so its table is a
permutation; R115, R116, by the mirror of R143: with bit 7 of the polynomial set the reflected byte step is invertible. -/
def Obligations.ByteStepIsInvertible : Prop :=
  (∀ q : Byte, q.getLsbD 0 = true → ∀ a b : Byte, byteN a q = byteN b q → a = b) ∧
  (∀ q : Byte, q.getLsbD 7 = true → ∀ a b : Byte, byteR a q = byteR b q → a = b)

/-- R96 and 95_test_vectors.md section 3.3: checksums of messages of one length are linear over XOR, leading zero bytes
change nothing, and a message followed by its own checksum has checksum 0. -/
def Obligations.ChecksumIsLinear : Prop :=
  (∀ A B : Message, A.length = B.length →
    crc8SeqN (List.zipWith (fun a b => a ^^^ b) A B) = crc8SeqN A ^^^ crc8SeqN B) ∧
  (∀ M : Message, crc8SeqN (0x00 :: M) = crc8SeqN M) ∧
  (∀ M : Message, crc8SeqN (M ++ [crc8SeqN M]) = 0x00)

/-- R105, R131: after a build with any polynomial the table engine computes the checksum under that polynomial, the reflected
one that under the reflected polynomial. -/
def Obligations.MismatchedPolynomialIsDefined : Prop :=
  ∀ (M : Message) (q : Byte),
    crc8Tbl M (tableN q) = crc8SeqUnder q M ∧ crc8TblR M (tableR q) = crc8SeqUnderR q M ∧
    crc8TblR M (tableR q) = crc8SeqUnder (reflect8 q) M

/-- R105, R131: the table engine agrees with the sequential one on every message exactly when the table is that of the
constant, which among the built tables is only the table built with it. -/
def Obligations.AgreementForcesTheTable : Prop :=
  (∀ T : Table, (∀ M, crc8Tbl M T = crc8SeqN M) ↔ (∀ i, T i = tableN Config.POLY i)) ∧
  (∀ T : Table, (∀ M, crc8TblR M T = crc8SeqR M) ↔ (∀ i, T i = tableR Config.RPOLY i)) ∧
  (∀ q, (∀ i, tableN q i = tableN Config.POLY i) ↔ q = 0x9B) ∧
  (∀ q, (∀ i, tableR q i = tableR Config.RPOLY i) ↔ q = 0xD9)

/-! ## The step -/

/-- R29, R67: a step runs the decoded command, or the decoded data word, on the state with the word consumed; a word that
decodes to nothing is fault entry. -/
def Obligations.StepRunsDecodedWord : Prop :=
  ∀ (s : State) (w : IoWord) (rest : List HostEvent), s.input = .word w :: rest →
    (s.phase = .idle → ∀ i, decode w = .ok i → step s = exec i { s with input := rest }) ∧
    (s.phase = .idle → ∀ e, decode w = .error e → step s = .next (faulted 1 { s with input := rest })) ∧
    (s.phase = .msg → ∀ d, decodeData w = .ok d → step s = .next (execData d { s with input := rest })) ∧
    (s.phase = .msg → ∀ e, decodeData w = .error e → step s = .next (faulted 2 { s with input := rest }))

/-- R29, R195: in `IDLE` and `MSG` every offered word is consumed by one step, which appends to `OUT` and touches neither the
words already there nor the rest of `IN`. -/
def Obligations.EveryWordIsConsumed : Prop :=
  ∀ (s : State) (w : IoWord) (rest : List HostEvent), s.input = .word w :: rest → s.phase ≠ .fault →
    ∃ t ws, step s = .next t ∧ t.input = rest ∧ t.out = s.out ++ ws ∧ t.taken = s.taken ∧ t.resets = s.resets

/-- R180, R192, with the model's choice of log 2: with nothing offered the block waits and all state survives. -/
def Obligations.WaitingKeepsAllState : Prop :=
  ∀ s : State, s.input = [] → s.phase ≠ .fault → step s = .next s

/-- R178, with the model's choice of log 7: the host takes the oldest held word; with none held nothing is taken. -/
def Obligations.TakingDrainsInOrder : Prop :=
  ∀ (s : State) (rest : List HostEvent), s.input = .take :: rest →
    (∀ w ws, s.out = w :: ws → step s = .next { s with input := rest, out := ws, taken := s.taken ++ [w] }) ∧
    (s.out = [] → step s = .next { s with input := rest })

/-! ## Faults and reset -/

/-- R161: a word is taken as `IllegalCommand` exactly when its fields are bad, that is when it matches no row. -/
def Obligations.IllegalCommandIsTaken : Prop :=
  ∀ (s : State) (w : IoWord) (rest : List HostEvent), s.phase = .idle → s.input = .word w :: rest →
    (BadCommandFields w ↔ step s = .next { s with input := rest, cause := 1, phase := .fault, out := s.out ++ [0xC100] }) ∧
    (BadCommandFields w ↔ ∀ r ∈ opcodeMap, r.accepts w = false)

/-- R162: a word is taken as `IllegalDataWord` exactly when its fields are bad, that is when it is neither a byte word nor
`0x8000`; nothing but that fault word is emitted. -/
def Obligations.IllegalDataWordIsTaken : Prop :=
  ∀ (s : State) (w : IoWord) (rest : List HostEvent), s.phase = .msg → s.input = .word w :: rest →
    (BadDataFields w ↔ step s = .next { s with input := rest, cause := 2, phase := .fault, out := s.out ++ [0xC200] }) ∧
    (BadDataFields w ↔ ¬ (w.toNat ≤ 0x00FF ∨ w = 0x8000))

/-- R163: `0x4000` with `TV_N = 0` and `0x7000` with `TV_R = 0`, and no other word, are taken as `TableNotBuilt`. -/
def Obligations.TableNotBuiltIsTaken : Prop :=
  (∀ (s : State) (w : IoWord) (rest : List HostEvent), s.phase = .idle → s.input = .word w :: rest →
    ((w = 0x4000 ∧ s.tvN = false) ∨ (w = 0x7000 ∧ s.tvR = false) ↔
      step s = .next { s with input := rest, cause := 3, phase := .fault, out := s.out ++ [0xC300] })) ∧
  (∀ s : State, s.phase = .idle → s.tvN = false →
    exec .crc8t s = .next { s with cause := 3, phase := .fault, out := s.out ++ [0xC300] }) ∧
  (∀ s : State, s.phase = .idle → s.tvR = false →
    exec .crc8tr s = .next { s with cause := 3, phase := .fault, out := s.out ++ [0xC300] })

/-- R165: a step that enters `FAULT` changes only `CAUSE` and `PHASE`, emits only the fault word and consumes only the
faulting word, and no word is consumed after it. -/
def Obligations.FaultEntryIsPrecise : Prop :=
  ∀ (s t : State) (w : IoWord) (rest : List HostEvent), s.input = .word w :: rest → s.phase ≠ .fault →
    step s = .next t → t.phase = .fault →
    (∃ code : BitVec 4, (code = 1 ∨ code = 2 ∨ code = 3) ∧ t = faulted code { s with input := rest }) ∧
    (∀ w' rest', t.input = .word w' :: rest' → step t = .fault .stuckInFaultPhase)

/-- R166: in `PHASE = FAULT` no word is accepted, and the only events the block answers are `RST`, which restores the reset
values of `PHASE`, `CAUSE` and both flags, and the host taking an emitted word, which leaves phase and cause as they are. -/
def Obligations.OnlyResetLeavesFault : Prop :=
  ∀ s : State, s.phase = .fault →
    (∀ w rest, s.input = .word w :: rest → step s = .fault .stuckInFaultPhase) ∧
    (s.input = [] → step s = .fault .stuckInFaultPhase) ∧
    (∀ t, step s = .next t →
      (((∃ rest, s.input = .rst :: rest) ∨ (∃ w n rest, s.input = .rstDuring w n :: rest)) ∧ InResetState t) ∨
      ((∃ rest, s.input = .take :: rest) ∧ t.phase = .fault ∧ t.cause = s.cause ∧ t.tvN = s.tvN ∧ t.tvR = s.tvR))

/-- R185: `RST` in any phase gives the reset state, emits nothing, withdraws nothing, and the next word is read as a command. -/
def Obligations.ResetFromAnyPhase : Prop :=
  ∀ (s : State) (rest : List HostEvent), s.input = .rst :: rest →
    ∃ t, step s = .next t ∧ t.phase = .idle ∧ t.tvN = false ∧ t.tvR = false ∧ t.cause = 0 ∧
      t.input = rest ∧ t.out = s.out ∧ t.taken = s.taken ∧
      (∀ w rest', rest = .word w :: rest' → step t = commandStep w { t with input := rest' })

/-- R186: `RST` inside the step on `w` gives the reset state, and of the words of that step the environment's choice of a
prefix leaves the block. -/
def Obligations.ResetInsideAStep : Prop :=
  ∀ (s u : State) (w : IoWord) (n : Nat) (rest : List HostEvent) (ws : List IoWord),
    s.phase ≠ .fault → step { s with input := .word w :: rest } = .next u → u.out = s.out ++ ws →
    ∃ t, step { s with input := .rstDuring w n :: rest } = .next t ∧ InResetState t ∧
      t.input = rest ∧ t.out = s.out ++ ws.take n ∧ t.taken = s.taken

/-- R32, R185: the values the spec gives for reset. -/
def Obligations.ResetStateValues : Prop :=
  State.reset.phase = .idle ∧ State.reset.tvN = false ∧ State.reset.tvR = false ∧ State.reset.cause = 0

/-- R192, D21, with the model's choice of log 11 for `exec`: a command inside a message is caught as a bad data word. -/
def Obligations.CommandInsideMessageIsCaught : Prop :=
  ∀ (s : State) (i : Instr), s.phase = .msg →
    exec i s = .next (faulted 2 s) ∧
    (∀ rest, s.input = .word (encode i) :: rest → step s = .next (faulted 2 { s with input := rest }))

/-! ## The seven commands -/

/-- R81: REFLECT8, as a meaning and as a step on its word, its fault, and that it is accepted in `IDLE` only. -/
def Obligations.Reflect8FollowsItsRule : Prop :=
  (∀ (s : State) (v : Byte), s.phase = .idle →
    exec (.reflect8 v) s = .next { s with out := s.out ++ [0x4000#16 ||| (reflect8 v).setWidth 16] }) ∧
  (∀ (s : State) (v : Byte) (rest : List HostEvent), s.phase = .idle →
    s.input = .word (0x1000#16 ||| v.setWidth 16) :: rest →
    step s = .next { s with input := rest, out := s.out ++ [0x4000#16 ||| (reflect8 v).setWidth 16] }) ∧
  (∀ (s : State) (w : IoWord) (rest : List HostEvent), s.phase = .idle → s.input = .word w :: rest →
    fieldOPC w = 1 → fieldCZ w ≠ 0 → step s = .next (faulted 1 { s with input := rest })) ∧
  (∀ (s : State) (v : Byte) (rest : List HostEvent), s.phase ≠ .idle → s.input = .word (0x1000#16 ||| v.setWidth 16) :: rest →
    step s = if s.phase = .msg then .next (faulted 2 { s with input := rest }) else .fault .stuckInFaultPhase)

/-- R93: CRC8S, its command word, its byte step, its end of message, its two faults, and that it is accepted in `IDLE`
only. -/
def Obligations.Crc8sFollowsItsRule : Prop :=
  (∀ s : State, s.phase = .idle → exec .crc8s s = .next { s with acc := 0x00, op := .crc8s, phase := .msg }) ∧
  (∀ (s : State) (rest : List HostEvent), s.phase = .idle → s.input = .word 0x2000 :: rest →
    step s = .next { s with input := rest, acc := 0x00, op := .crc8s, phase := .msg }) ∧
  (∀ (s : State) (b : Byte) (rest : List HostEvent), s.phase = .msg → s.op = .crc8s →
    s.input = .word (0x0000#16 ||| b.setWidth 16) :: rest →
    step s = .next { s with input := rest, acc := byteN (s.acc ^^^ b) Config.POLY }) ∧
  (∀ (s : State) (rest : List HostEvent), s.phase = .msg → s.op = .crc8s → s.input = .word 0x8000 :: rest →
    step s = .next { s with input := rest, phase := .idle, out := s.out ++ [0x4000#16 ||| s.acc.setWidth 16] }) ∧
  (∀ (s : State) (w : IoWord) (rest : List HostEvent), s.phase = .idle → s.input = .word w :: rest →
    fieldOPC w = 2 → fieldCZ w ≠ 0 ∨ fieldIMM8 w ≠ 0 → step s = .next (faulted 1 { s with input := rest })) ∧
  (∀ (s : State) (w : IoWord) (rest : List HostEvent), s.phase = .msg → s.op = .crc8s → s.input = .word w :: rest →
    BadDataFields w → step s = .next (faulted 2 { s with input := rest })) ∧
  (∀ (s : State) (rest : List HostEvent), s.phase ≠ .idle → s.input = .word 0x2000 :: rest →
    step s = if s.phase = .msg then .next (faulted 2 { s with input := rest }) else .fault .stuckInFaultPhase)

/-- R101: BLDT. Every entry, the flag, the emitted words; everything else unchanged; accepted in `IDLE` only. -/
def Obligations.BldtFollowsItsRule : Prop :=
  (∀ (s : State) (q : Byte), s.phase = .idle →
    ∃ t, exec (.bldt q) s = .next t ∧ (∀ i, bankRead .normal t i = byteN i q) ∧ t.tvN = true ∧
      t.out = s.out ++ ((List.range 255).map (fun i => 0x0000#16 ||| (byteN (BitVec.ofNat 8 i) q).setWidth 16) ++
        [0x4000#16 ||| (byteN 0xFF q).setWidth 16]) ∧
      { t with tblN := s.tblN, tvN := s.tvN, out := s.out } = s) ∧
  (∀ (s : State) (q : Byte) (rest : List HostEvent), s.phase = .idle →
    s.input = .word (0x3000#16 ||| q.setWidth 16) :: rest → step s = exec (.bldt q) { s with input := rest }) ∧
  (∀ (s : State) (w : IoWord) (rest : List HostEvent), s.phase = .idle → s.input = .word w :: rest →
    fieldOPC w = 3 → fieldCZ w ≠ 0 → step s = .next (faulted 1 { s with input := rest })) ∧
  (∀ (s : State) (q : Byte) (rest : List HostEvent), s.phase ≠ .idle → s.input = .word (0x3000#16 ||| q.setWidth 16) :: rest →
    step s = if s.phase = .msg then .next (faulted 2 { s with input := rest }) else .fault .stuckInFaultPhase)

/-- R103: CRC8T, its command word with a built table and without one, its byte step, its end of message, its other
faults, and that it is accepted in `IDLE` only. -/
def Obligations.Crc8tFollowsItsRule : Prop :=
  (∀ s : State, s.phase = .idle → s.tvN = true →
    exec .crc8t s = .next { s with acc := 0x00, op := .crc8t, phase := .msg }) ∧
  (∀ (s : State) (rest : List HostEvent), s.phase = .idle → s.input = .word 0x4000 :: rest →
    step s = .next (if s.tvN then { s with input := rest, acc := 0x00, op := .crc8t, phase := .msg }
      else faulted 3 { s with input := rest })) ∧
  (∀ (s : State) (b : Byte) (rest : List HostEvent), s.phase = .msg → s.op = .crc8t →
    s.input = .word (0x0000#16 ||| b.setWidth 16) :: rest →
    step s = .next { s with input := rest, acc := bankRead .normal s (s.acc ^^^ b) }) ∧
  (∀ (s : State) (rest : List HostEvent), s.phase = .msg → s.op = .crc8t → s.input = .word 0x8000 :: rest →
    step s = .next { s with input := rest, phase := .idle, out := s.out ++ [0x4000#16 ||| s.acc.setWidth 16] }) ∧
  (∀ (s : State) (w : IoWord) (rest : List HostEvent), s.phase = .idle → s.input = .word w :: rest →
    fieldOPC w = 4 → fieldCZ w ≠ 0 ∨ fieldIMM8 w ≠ 0 → step s = .next (faulted 1 { s with input := rest })) ∧
  (∀ (s : State) (w : IoWord) (rest : List HostEvent), s.phase = .msg → s.op = .crc8t → s.input = .word w :: rest →
    BadDataFields w → step s = .next (faulted 2 { s with input := rest })) ∧
  (∀ (s : State) (rest : List HostEvent), s.phase ≠ .idle → s.input = .word 0x4000 :: rest →
    step s = if s.phase = .msg then .next (faulted 2 { s with input := rest }) else .fault .stuckInFaultPhase)

/-- R118: CRC8SR, its command word, its byte step, its end of message, its two faults, and that it is accepted in `IDLE`
only. -/
def Obligations.Crc8srFollowsItsRule : Prop :=
  (∀ s : State, s.phase = .idle → exec .crc8sr s = .next { s with acc := 0x00, op := .crc8sr, phase := .msg }) ∧
  (∀ (s : State) (rest : List HostEvent), s.phase = .idle → s.input = .word 0x5000 :: rest →
    step s = .next { s with input := rest, acc := 0x00, op := .crc8sr, phase := .msg }) ∧
  (∀ (s : State) (b : Byte) (rest : List HostEvent), s.phase = .msg → s.op = .crc8sr →
    s.input = .word (0x0000#16 ||| b.setWidth 16) :: rest →
    step s = .next { s with input := rest, acc := byteR (s.acc ^^^ reflect8 b) Config.RPOLY }) ∧
  (∀ (s : State) (rest : List HostEvent), s.phase = .msg → s.op = .crc8sr → s.input = .word 0x8000 :: rest →
    step s = .next { s with input := rest, phase := .idle, out := s.out ++ [0x4000#16 ||| (reflect8 s.acc).setWidth 16] }) ∧
  (∀ (s : State) (w : IoWord) (rest : List HostEvent), s.phase = .idle → s.input = .word w :: rest →
    fieldOPC w = 5 → fieldCZ w ≠ 0 ∨ fieldIMM8 w ≠ 0 → step s = .next (faulted 1 { s with input := rest })) ∧
  (∀ (s : State) (w : IoWord) (rest : List HostEvent), s.phase = .msg → s.op = .crc8sr → s.input = .word w :: rest →
    BadDataFields w → step s = .next (faulted 2 { s with input := rest })) ∧
  (∀ (s : State) (rest : List HostEvent), s.phase ≠ .idle → s.input = .word 0x5000 :: rest →
    step s = if s.phase = .msg then .next (faulted 2 { s with input := rest }) else .fault .stuckInFaultPhase)

/-- R126: BLDTR. Every entry, the flag, the emitted words; everything else unchanged; accepted in `IDLE` only. -/
def Obligations.BldtrFollowsItsRule : Prop :=
  (∀ (s : State) (q : Byte), s.phase = .idle →
    ∃ t, exec (.bldtr q) s = .next t ∧ (∀ i, bankRead .reflected t i = byteR i q) ∧ t.tvR = true ∧
      t.out = s.out ++ ((List.range 255).map (fun i => 0x0000#16 ||| (byteR (BitVec.ofNat 8 i) q).setWidth 16) ++
        [0x4000#16 ||| (byteR 0xFF q).setWidth 16]) ∧
      { t with tblR := s.tblR, tvR := s.tvR, out := s.out } = s) ∧
  (∀ (s : State) (q : Byte) (rest : List HostEvent), s.phase = .idle →
    s.input = .word (0x6000#16 ||| q.setWidth 16) :: rest → step s = exec (.bldtr q) { s with input := rest }) ∧
  (∀ (s : State) (w : IoWord) (rest : List HostEvent), s.phase = .idle → s.input = .word w :: rest →
    fieldOPC w = 6 → fieldCZ w ≠ 0 → step s = .next (faulted 1 { s with input := rest })) ∧
  (∀ (s : State) (q : Byte) (rest : List HostEvent), s.phase ≠ .idle → s.input = .word (0x6000#16 ||| q.setWidth 16) :: rest →
    step s = if s.phase = .msg then .next (faulted 2 { s with input := rest }) else .fault .stuckInFaultPhase)

/-- R128: CRC8TR, its command word with a built table and without one, its byte step, its end of message, its other
faults, and that it is accepted in `IDLE` only. -/
def Obligations.Crc8trFollowsItsRule : Prop :=
  (∀ s : State, s.phase = .idle → s.tvR = true →
    exec .crc8tr s = .next { s with acc := 0x00, op := .crc8tr, phase := .msg }) ∧
  (∀ (s : State) (rest : List HostEvent), s.phase = .idle → s.input = .word 0x7000 :: rest →
    step s = .next (if s.tvR then { s with input := rest, acc := 0x00, op := .crc8tr, phase := .msg }
      else faulted 3 { s with input := rest })) ∧
  (∀ (s : State) (b : Byte) (rest : List HostEvent), s.phase = .msg → s.op = .crc8tr →
    s.input = .word (0x0000#16 ||| b.setWidth 16) :: rest →
    step s = .next { s with input := rest, acc := bankRead .reflected s (s.acc ^^^ reflect8 b) }) ∧
  (∀ (s : State) (rest : List HostEvent), s.phase = .msg → s.op = .crc8tr → s.input = .word 0x8000 :: rest →
    step s = .next { s with input := rest, phase := .idle, out := s.out ++ [0x4000#16 ||| (reflect8 s.acc).setWidth 16] }) ∧
  (∀ (s : State) (w : IoWord) (rest : List HostEvent), s.phase = .idle → s.input = .word w :: rest →
    fieldOPC w = 7 → fieldCZ w ≠ 0 ∨ fieldIMM8 w ≠ 0 → step s = .next (faulted 1 { s with input := rest })) ∧
  (∀ (s : State) (w : IoWord) (rest : List HostEvent), s.phase = .msg → s.op = .crc8tr → s.input = .word w :: rest →
    BadDataFields w → step s = .next (faulted 2 { s with input := rest })) ∧
  (∀ (s : State) (rest : List HostEvent), s.phase ≠ .idle → s.input = .word 0x7000 :: rest →
    step s = if s.phase = .msg then .next (faulted 2 { s with input := rest }) else .fault .stuckInFaultPhase)

/-! ## Frames and who writes what -/

/-- R20, R24, R81, R93, R103, R118, R128: what REFLECT8 and the four checksum commands leave unchanged whenever they answer a
next state, the fault entries among them. Every byte of both banks reads as before, and the words held at `OUT` stay at its front. -/
def Obligations.FrameOfReflectAndChecksumCommands : Prop :=
  ∀ (i : Instr) (s t : State),
    ((∃ v, i = .reflect8 v) ∨ i = .crc8s ∨ i = .crc8t ∨ i = .crc8sr ∨ i = .crc8tr) → exec i s = .next t →
    (∀ b j, bankRead b t j = bankRead b s j) ∧ t.tblN = s.tblN ∧ t.tblR = s.tblR ∧
    t.tvN = s.tvN ∧ t.tvR = s.tvR ∧ t.input = s.input ∧ t.taken = s.taken ∧ t.resets = s.resets ∧
    (∃ ws, t.out = s.out ++ ws) ∧
    ((∃ v, i = .reflect8 v) → t.acc = s.acc ∧ t.op = s.op) ∧
    (t.phase ≠ .fault → t.cause = s.cause) ∧
    (t.phase = .fault → t.acc = s.acc ∧ t.op = s.op)

/-- R20, R22, R23, R101, R126: what BLDT and BLDTR leave unchanged whenever they answer a next state. BLDT stores to the 256
entries of `TBL_N` only and BLDTR to those of `TBL_R` only; a build met inside a message stores nothing. -/
def Obligations.FrameOfBuilds : Prop :=
  ∀ (q : Byte) (s t : State),
    (exec (.bldt q) s = .next t →
      (∀ j, bankRead .reflected t j = bankRead .reflected s j) ∧ t.tblR = s.tblR ∧ t.tvR = s.tvR ∧
      t.acc = s.acc ∧ t.op = s.op ∧ t.input = s.input ∧ t.taken = s.taken ∧ t.resets = s.resets ∧
      (∃ ws, t.out = s.out ++ ws) ∧
      (t.phase ≠ .fault → t.phase = s.phase ∧ t.cause = s.cause) ∧
      (t.phase = .fault → (∀ j, bankRead .normal t j = bankRead .normal s j) ∧ t.tvN = s.tvN)) ∧
    (exec (.bldtr q) s = .next t →
      (∀ j, bankRead .normal t j = bankRead .normal s j) ∧ t.tblN = s.tblN ∧ t.tvN = s.tvN ∧
      t.acc = s.acc ∧ t.op = s.op ∧ t.input = s.input ∧ t.taken = s.taken ∧ t.resets = s.resets ∧
      (∃ ws, t.out = s.out ++ ws) ∧
      (t.phase ≠ .fault → t.phase = s.phase ∧ t.cause = s.cause) ∧
      (t.phase = .fault → (∀ j, bankRead .reflected t j = bankRead .reflected s j) ∧ t.tvR = s.tvR))

/-- R22, R23, R24, R55: over every event of the host, a bank or its valid flag changes only by its own build, which is
accepted in `IDLE` only, or by a reset. -/
def Obligations.BanksChangeOnlyByBuildOrReset : Prop :=
  ∀ s t : State, step s = .next t →
    (((∃ j, bankRead .normal t j ≠ bankRead .normal s j) ∨ t.tvN ≠ s.tvN) →
      (s.phase = .idle ∧ ∃ q rest, s.input = .word (0x3000#16 ||| q.setWidth 16) :: rest ∧
        BankHolds .normal (tableN q) t ∧ t.tvN = true) ∨
      (∃ rest, s.input = .rst :: rest) ∨ (∃ w n rest, s.input = .rstDuring w n :: rest)) ∧
    (((∃ j, bankRead .reflected t j ≠ bankRead .reflected s j) ∨ t.tvR ≠ s.tvR) →
      (s.phase = .idle ∧ ∃ q rest, s.input = .word (0x6000#16 ||| q.setWidth 16) :: rest ∧
        BankHolds .reflected (tableR q) t ∧ t.tvR = true) ∨
      (∃ rest, s.input = .rst :: rest) ∨ (∃ w n rest, s.input = .rstDuring w n :: rest))

/-- R20, R26, R94: `ACC` and `OP` change only at a checksum command word, which clears `ACC`, and `ACC` at a byte of a message;
no other word, and no other command, writes them. -/
def Obligations.AccumulatorAndOpWriters : Prop :=
  ∀ (s t : State) (w : IoWord) (rest : List HostEvent), s.input = .word w :: rest → step s = .next t →
    (t.acc ≠ s.acc →
      (s.phase = .msg ∧ t.phase = .msg ∧ ∃ b : Byte, w = b.setWidth 16) ∨
      (s.phase = .idle ∧ t.phase = .msg ∧ t.acc = 0x00 ∧ (w = 0x2000 ∨ w = 0x4000 ∨ w = 0x5000 ∨ w = 0x7000))) ∧
    (t.op ≠ s.op →
      s.phase = .idle ∧ t.phase = .msg ∧
      ((w = 0x2000 ∧ t.op = .crc8s) ∨ (w = 0x4000 ∧ t.op = .crc8t) ∨
       (w = 0x5000 ∧ t.op = .crc8sr) ∨ (w = 0x7000 ∧ t.op = .crc8tr)))

/-- R25, R28, R94: which words move `PHASE` where. From `MSG` only `0x8000` leads back to `IDLE`. Unless a fault is entered
`CAUSE` keeps its value. -/
def Obligations.PhaseMovesOnlyAsRuled : Prop :=
  ∀ (s t : State) (w : IoWord) (rest : List HostEvent), s.input = .word w :: rest → step s = .next t →
    (s.phase = .idle →
      (t.phase = .msg ↔ w = 0x2000 ∨ w = 0x5000 ∨ (w = 0x4000 ∧ s.tvN = true) ∨ (w = 0x7000 ∧ s.tvR = true)) ∧
      (t.phase = .idle ↔ ∃ v : Byte, w = (0x1000#16 ||| v.setWidth 16) ∨ w = (0x3000#16 ||| v.setWidth 16) ∨
        w = (0x6000#16 ||| v.setWidth 16))) ∧
    (s.phase = .msg →
      (t.phase = .idle ↔ w = 0x8000) ∧ (t.phase = .msg ↔ ∃ b : Byte, w = b.setWidth 16)) ∧
    (t.phase ≠ .fault → t.cause = s.cause)

/-- R23, R189: no data-word step reads the bank of the other convention: replacing its contents changes nothing else. -/
def Obligations.OtherBankIsNeverRead : Prop :=
  ∀ (s : State) (d : DataWord) (m : Memory),
    (s.op ≠ .crc8tr → execData d { s with tblR := m } = { execData d s with tblR := m }) ∧
    (s.op ≠ .crc8t → execData d { s with tblN := m } = { execData d s with tblN := m })

/-- R63: over every event of the host, the `OUT` sequence keeps what it holds and grows by words of the shapes of R63 only. -/
def Obligations.OutGrowsByResultWords : Prop :=
  ∀ s t : State, step s = .next t →
    ∃ ws, outSequence t = outSequence s ++ ws ∧
      ∀ w ∈ ws, ResultShape w ∧
        ((∃ v : Byte, w = (0x4000#16 ||| v.setWidth 16)) ∨ (∃ v : Byte, w = (0x0000#16 ||| v.setWidth 16)) ∨
          w = 0xC100 ∨ w = 0xC200 ∨ w = 0xC300)

/-- The canonical form of a bank's contents (log 12) is canonical: equal reads at every index mean equal data. -/
def Obligations.CanonicalBanksAreDetermined : Prop :=
  ∀ m m' : Memory, Memory.wf m = true → Memory.wf m' = true → (∀ a, Memory.read m a = Memory.read m' a) → m = m'

/-! ## Machine level and function level -/

/-- R95: CRC8S over a message, from any state in `IDLE`, with the loop invariant. -/
def Obligations.Crc8sRunComputesChecksum : Prop :=
  ∀ (s : State) (M : Message) (rest : List HostEvent), s.phase = .idle →
    s.input = .word 0x2000 :: (messageEvents M ++ rest) →
    runSteps (M.length + 2) s = .next { s with
      input := rest, acc := crc8SeqN M, op := .crc8s, out := s.out ++ [0x4000#16 ||| (crc8SeqN M).setWidth 16] } ∧
    (∀ k, k ≤ M.length → ∃ t, runSteps (k + 1) s = .next t ∧ t.phase = .msg ∧ t.acc = crc8SeqN (M.take k))

/-- R104 (a), (b), (c): BLDT and CRC8T over a message. -/
def Obligations.NormalTableRunComputesChecksum : Prop :=
  (∀ (s : State) (q : Byte) (rest : List HostEvent), s.phase = .idle →
    s.input = .word (0x3000#16 ||| q.setWidth 16) :: rest →
    ∃ t, step s = .next t ∧ BankHolds .normal (tableN q) t ∧ t.tvN = true ∧ t.out = s.out ++ tableWords (tableN q) ∧
      { t with tblN := s.tblN, tvN := s.tvN, out := s.out } = { s with input := rest }) ∧
  (∀ (s : State) (M : Message) (rest : List HostEvent), s.phase = .idle → s.tvN = true →
    s.input = .word 0x4000 :: (messageEvents M ++ rest) →
    runSteps (M.length + 2) s = .next { s with
      input := rest, acc := crc8Tbl M (bankRead .normal s), op := .crc8t,
      out := s.out ++ [0x4000#16 ||| (crc8Tbl M (bankRead .normal s)).setWidth 16] } ∧
    (∀ k, k ≤ M.length →
      ∃ t, runSteps (k + 1) s = .next t ∧ t.phase = .msg ∧ t.acc = crc8Tbl (M.take k) (bankRead .normal s))) ∧
  (∀ (s : State) (rest : List HostEvent), s.phase = .idle → s.tvN = false → s.input = .word 0x4000 :: rest →
    ∃ t, step s = .next t ∧ t.out = s.out ++ [0xC300] ∧ t.phase = .fault)

/-- R119: CRC8SR over a message, from any state in `IDLE`, with the loop invariant. -/
def Obligations.Crc8srRunComputesChecksum : Prop :=
  ∀ (s : State) (M : Message) (rest : List HostEvent), s.phase = .idle →
    s.input = .word 0x5000 :: (messageEvents M ++ rest) →
    runSteps (M.length + 2) s = .next { s with
      input := rest, acc := reflect8 (crc8SeqR M), op := .crc8sr,
      out := s.out ++ [0x4000#16 ||| (crc8SeqR M).setWidth 16] } ∧
    (∀ k, k ≤ M.length → ∃ t, runSteps (k + 1) s = .next t ∧ t.phase = .msg ∧ reflect8 t.acc = crc8SeqR (M.take k))

/-- R129 (a), (b), (c): BLDTR and CRC8TR over a message. -/
def Obligations.ReflectedTableRunComputesChecksum : Prop :=
  (∀ (s : State) (q : Byte) (rest : List HostEvent), s.phase = .idle →
    s.input = .word (0x6000#16 ||| q.setWidth 16) :: rest →
    ∃ t, step s = .next t ∧ BankHolds .reflected (tableR q) t ∧ t.tvR = true ∧ t.out = s.out ++ tableWords (tableR q) ∧
      { t with tblR := s.tblR, tvR := s.tvR, out := s.out } = { s with input := rest }) ∧
  (∀ (s : State) (M : Message) (rest : List HostEvent), s.phase = .idle → s.tvR = true →
    s.input = .word 0x7000 :: (messageEvents M ++ rest) →
    runSteps (M.length + 2) s = .next { s with
      input := rest, acc := reflect8 (crc8TblR M (bankRead .reflected s)), op := .crc8tr,
      out := s.out ++ [0x4000#16 ||| (crc8TblR M (bankRead .reflected s)).setWidth 16] }) ∧
  (∀ (s : State) (rest : List HostEvent), s.phase = .idle → s.tvR = false → s.input = .word 0x7000 :: rest →
    ∃ t, step s = .next t ∧ t.out = s.out ++ [0xC300] ∧ t.phase = .fault)

/-- R140, R141, R144, R145: the four functions agree on every message, and so do the four commands: after any session of
operations whose most recent builds are those the engine needs (none for CRC8S and CRC8SR), in whatever order and with
whatever between them, the command returns `0x4000 | crc8_seq_n(M)`. -/
def Obligations.FourEnginesAgree : Prop :=
  (∀ M : Message, crc8SeqN M = crc8Tbl M (tableN Config.POLY) ∧ crc8SeqR M = crc8TblR M (tableR Config.RPOLY) ∧
    crc8SeqN M = crc8SeqR M) ∧
  (∀ (os : List Operation) (op : ChecksumOp) (M : Message) (p : Builds) (rs : List (List IoWord)) (s : State)
    (rest : List HostEvent), s.phase = .idle → HoldsBuilds p s → sessionResults os p = some rs →
    (op = .crc8t → (sessionBuilds os p).normal = some Config.POLY) →
    (op = .crc8tr → (sessionBuilds os p).reflected = some Config.RPOLY) →
    s.input = sessionEvents os ++ (checksumEvents op M ++ rest) →
    ∃ t, runSteps ((sessionEvents os).length + (M.length + 2)) s = .next t ∧ t.phase = .idle ∧ t.input = rest ∧
      t.out = s.out ++ rs.flatten ++ [0x4000#16 ||| (crc8SeqN M).setWidth 16])

/-- R146: the reflector is an involution, and REFLECT8 of a result of REFLECT8 gives the byte back. -/
def Obligations.ReflectingTwiceReturnsTheByte : Prop :=
  ∀ b : Byte, reflect8 (reflect8 b) = b ∧
    ∀ s : State, s.phase = .idle →
      ∃ (r : Byte) (t : State), exec (.reflect8 b) s = .next t ∧ t.out = s.out ++ [0x4000#16 ||| r.setWidth 16] ∧
        ∃ u, exec (.reflect8 r) t = .next u ∧ u.out = t.out ++ [0x4000#16 ||| b.setWidth 16]

/-- R147: the empty message has checksum 0 in all four functions, and each checksum command word followed at once by `0x8000`
emits `0x4000`, the two table commands only when their flag is 1; otherwise they fault at the command word. -/
def Obligations.EmptyMessageGivesZero : Prop :=
  (∀ T : Table, crc8SeqN [] = 0x00 ∧ crc8Tbl [] T = 0x00 ∧ crc8SeqR [] = 0x00 ∧ crc8TblR [] T = 0x00) ∧
  (∀ (s : State) (op : ChecksumOp) (rest : List HostEvent), s.phase = .idle →
    s.input = .word (encode (checksumCommand op)) :: .word 0x8000 :: rest →
    (tableReady op s = true →
      ∃ t, runSteps 2 s = .next t ∧ t.phase = .idle ∧ t.out = s.out ++ [0x4000] ∧ t.acc = 0x00) ∧
    (tableReady op s = false → step s = .next (faulted 3 { s with input := .word 0x8000 :: rest })))

/-- R148: a table depends on the polynomial alone and its entry 0 is 0; two builds with the same polynomial emit the same 256
words and leave the same bank contents, and the first word of every build is `0x0000`. -/
def Obligations.BuildingTwiceIsTheSame : Prop :=
  ∀ q : Byte, tableN q 0x00 = 0x00 ∧ tableR q 0x00 = 0x00 ∧
    ∀ s : State, s.phase = .idle →
      (∃ t u ws, exec (.bldt q) s = .next t ∧ exec (.bldt q) t = .next u ∧ ws.length = 256 ∧ ws.head? = some 0x0000 ∧
        t.out = s.out ++ ws ∧ u.out = t.out ++ ws ∧ ∀ i, bankRead .normal u i = bankRead .normal t i) ∧
      (∃ t u ws, exec (.bldtr q) s = .next t ∧ exec (.bldtr q) t = .next u ∧ ws.length = 256 ∧ ws.head? = some 0x0000 ∧
        t.out = s.out ++ ws ∧ u.out = t.out ++ ws ∧ ∀ i, bankRead .reflected u i = bankRead .reflected t i)

/-- R18, R64, R187, R191: a host that builds each table before its engine gets, from any state in `IDLE`, for every session of
operations exactly the words the functions give, in order, without a fault, and the block ends in `IDLE`. The words are
consumed without takes, `OUT` being unbounded (the model's choice, log 7). -/
def Obligations.SessionsReturnFunctionResults : Prop :=
  ∀ (os : List Operation) (p : Builds) (rs : List (List IoWord)) (s : State) (rest : List HostEvent),
    s.phase = .idle → HoldsBuilds p s → s.input = sessionEvents os ++ rest → sessionResults os p = some rs →
    ∃ t, runSteps (sessionEvents os).length s = .next t ∧ t.phase = .idle ∧ t.input = rest ∧
      t.out = s.out ++ rs.flatten ∧ t.taken = s.taken ∧ t.cause = s.cause ∧ HoldsBuilds (sessionBuilds os p) t

/-- R64: the host can cut the words of a session into its results at every `LAST = 1`: one result for each operation. -/
def Obligations.ResultsAreCutAtLast : Prop :=
  ∀ (os : List Operation) (p : Builds) (rs : List (List IoWord)), sessionResults os p = some rs →
    cutResults rs.flatten = rs ∧ rs.length = os.length

/-- R72: what the host reads off each shape of result word. -/
def Obligations.HostReadsResultWords : Prop :=
  (∀ v : Byte, readResult (lastWord v) = .resultByte v true ∧ readResult (moreWord v) = .resultByte v false) ∧
  (∀ k : FaultKind, readResult (faultWord (faultCode k)) = .faulted (faultCode k))

/-- R70, R71: the words of the assembler lines, and the pseudo-instructions by their expansions. -/
def Obligations.AssemblerLinesExpand : Prop :=
  (∀ v : Byte,
    (AsmLine.command (.reflect8 v)).events = [.word (0x1000#16 ||| v.setWidth 16)] ∧
    (AsmLine.command (.bldt v)).events = [.word (0x3000#16 ||| v.setWidth 16)] ∧
    (AsmLine.command (.bldtr v)).events = [.word (0x6000#16 ||| v.setWidth 16)] ∧
    (AsmLine.byte v).events = [.word (v.setWidth 16)]) ∧
  (AsmLine.command .crc8s).events = [.word 0x2000] ∧ (AsmLine.command .crc8t).events = [.word 0x4000] ∧
  (AsmLine.command .crc8sr).events = [.word 0x5000] ∧ (AsmLine.command .crc8tr).events = [.word 0x7000] ∧
  AsmLine.eom.events = [.word 0x8000] ∧ AsmLine.reset.events = [.rst] ∧ (∀ w, (AsmLine.word w).events = [.word w]) ∧
  AsmLine.bldtp.events = (AsmLine.command (.bldt 0x9B)).events ∧
  AsmLine.bldtrp.events = (AsmLine.command (.bldtr 0xD9)).events ∧
  (∀ M : Message, (AsmLine.msg M).events = assemble (M.map .byte ++ [.eom])) ∧
  (∀ text : List (BitVec 7), (AsmLine.ascii text).events = assemble (text.map (fun c => .byte (c.setWidth 8)) ++ [.eom])) ∧
  (∀ (op : ChecksumOp) (M : Message),
    (AsmLine.checksum op M).events = assemble [.command (checksumCommand op), .msg M])

/-! ## Invariants and observation -/

/-- The invariant holds at reset. -/
def Obligations.InvariantAtReset : Prop := MachineInv State.reset

/-- Every step keeps the invariant, from every state that has it: R34 (a) to (e), the banks' canonical form, no half-built
bank, and a cause code that is produced. -/
def Obligations.EveryStepKeepsInvariant : Prop :=
  ∀ s t : State, MachineInv s → step s = .next t → MachineInv t

/-- R34: the invariants (a) to (e) hold in every state reachable from reset, whatever the host does, and the byte of (a) and
(b) is the operand of the most recent build since the last reset. -/
def Obligations.ReachableStatesMeetR34 : Prop :=
  ∀ (events : List HostEvent) (k : Nat) (t : State),
    runSteps k { State.reset with input := events } = .next t →
    RuleInv t ∧
    (t.tvN = true → ∃ q, (runBuilds k { State.reset with input := events } ⟨none, none⟩).normal = some q ∧
      BankHolds .normal (tableN q) t) ∧
    (t.tvR = true → ∃ q, (runBuilds k { State.reset with input := events } ⟨none, none⟩).reflected = some q ∧
      BankHolds .reflected (tableR q) t)

/-- R32, R33: what the spec leaves unspecified cannot be observed. Two states that differ only in `ACC` and `OP` outside a
message, in banks that are not valid and in the model's count of resets take the same step: the same words, the same phase,
the same flags, and states that again differ in no more than that; or both stop alike. -/
def Obligations.UnspecifiedStateIsUnobservable : Prop :=
  ∀ s t : State, EngineHasTable s → Alike s t →
    (∀ s', step s = .next s' → ∃ t', step t = .next t' ∧ Alike s' t') ∧
    (∀ f, step s = .fault f → step t = .fault f)
end

