-- ==== Sys2Proof/Laws/Decode.lean ====
section
/-! SUPPORT. The fields of assembled words, and a word as its fields. -/

namespace Sys2Proof.Machine

@[simp] theorem fieldOPC_commandWord (o : BitVec 4) (v : Byte) : fieldOPC (commandWord o v) = o := by
  simp only [fieldOPC, commandWord]
  ext i hi
  simp [hi]
  rw [BitVec.getLsbD_of_ge v (12 + i) (by omega)]
  simp [show 12 + i < 16 by omega, show i < 16 by omega]

@[simp] theorem fieldCZ_commandWord (o : BitVec 4) (v : Byte) : fieldCZ (commandWord o v) = 0 := by
  simp only [fieldCZ, commandWord]
  ext i hi
  simp
  omega

@[simp] theorem fieldIMM8_commandWord (o : BitVec 4) (v : Byte) : fieldIMM8 (commandWord o v) = v := by
  simp only [fieldIMM8, commandWord]
  ext i hi
  simp [hi]
  simp [show i < 16 by omega, show i < 12 by omega]

/-- A word with `CZ = 0` is the command word of its `OPC` and `IMM8`. -/
theorem commandWord_of_fields {w : IoWord} (h : fieldCZ w = 0) : commandWord (fieldOPC w) (fieldIMM8 w) = w := by
  ext i hi
  have hcz : ∀ j, j < 4 → w.getLsbD (8 + j) = false := by
    intro j hj
    have := congrArg (fun v => v.getLsbD j) h
    simpa [fieldCZ, hj] using this
  simp [commandWord, fieldOPC, fieldIMM8]
  rcases Nat.lt_or_ge i 8 with h1 | h1
  · simp [h1, show i < 12 by omega, BitVec.getLsbD_eq_getElem hi]
  · rcases Nat.lt_or_ge i 12 with h2 | h2
    · have := hcz (i - 8) (by omega)
      rw [show 8 + (i - 8) = i by omega, BitVec.getLsbD_eq_getElem hi] at this
      simp [h2, this, show ¬ i < 8 by omega]
    · simp [show ¬ i < 12 by omega, show ¬ i < 8 by omega, show i - 12 < 4 by omega, show 12 + (i - 12) = i by omega,
        BitVec.getLsbD_eq_getElem hi]

@[simp] theorem fieldDZ_byteWord (b : Byte) : fieldDZ (encodeData (.byte b)) = 0 := by
  simp only [fieldDZ, encodeData]
  ext i hi
  simp

@[simp] theorem fieldEOM_byteWord (b : Byte) : fieldEOM (encodeData (.byte b)) = false := by
  simp [fieldEOM, encodeData]

@[simp] theorem fieldBYTE_byteWord (b : Byte) : fieldBYTE (encodeData (.byte b)) = b := by
  simp only [fieldBYTE, encodeData]
  ext i hi
  simp [hi]
  intro _
  omega

end Sys2Proof.Machine
end

