-- ==== Sys2Proof/Laws/Memory.lean ====
section
/-! SUPPORT. The laws of bank contents: a read after a write, the canonical form, and the fill of a build. -/

namespace Sys2Proof.Machine

@[simp] theorem Memory.read_nil (a : Nat) : Memory.read [] a = none := rfl

/-- A read after a write gives the written byte at that index and the old one everywhere else (R42, R47). -/
theorem Memory.read_write (m : Memory) (a v b) :
    Memory.read (Memory.write m a v) b = if b = a then some v else Memory.read m b := by
  induction m with
  | nil => simp [Memory.write, Memory.read]
  | cons c m ih =>
    obtain ⟨k, x⟩ := c
    unfold Memory.write
    split_ifs with h1 h2 <;> simp only [Memory.read, ih] <;> split_ifs <;> first | rfl | omega

theorem Memory.risesFrom_mono {lo lo' : Nat} (h : lo' ≤ lo) {m : Memory} (hm : Memory.risesFrom lo m = true) :
    Memory.risesFrom lo' m = true := by
  cases m with
  | nil => rfl
  | cons c m =>
    simp only [Memory.risesFrom, Bool.and_eq_true, decide_eq_true_eq] at hm ⊢
    exact ⟨⟨by omega, hm.1.2⟩, hm.2⟩

theorem Memory.risesFrom_write {lo : Nat} {m : Memory} {a : Nat} (v : Byte) (hlo : lo ≤ a) (ha : a < 256)
    (hm : Memory.risesFrom lo m = true) : Memory.risesFrom lo (Memory.write m a v) = true := by
  induction m generalizing lo with
  | nil => simp [Memory.write, Memory.risesFrom, hlo, ha]
  | cons c m ih =>
    obtain ⟨k, x⟩ := c
    simp only [Memory.risesFrom, Bool.and_eq_true, decide_eq_true_eq] at hm
    obtain ⟨⟨h1, h2⟩, h3⟩ := hm
    unfold Memory.write
    split_ifs with hak hak'
    · simp only [Memory.risesFrom, Bool.and_eq_true, decide_eq_true_eq]
      exact ⟨⟨hlo, ha⟩, ⟨by omega, h2⟩, h3⟩
    · subst hak'
      simp only [Memory.risesFrom, Bool.and_eq_true, decide_eq_true_eq]
      exact ⟨⟨hlo, ha⟩, h3⟩
    · simp only [Memory.risesFrom, Bool.and_eq_true, decide_eq_true_eq]
      exact ⟨⟨h1, h2⟩, ih (by omega) h3⟩

/-- A write of a bank keeps the canonical form. -/
theorem Memory.wf_write {m : Memory} {a : Nat} (v : Byte) (ha : a < 256) (hm : Memory.wf m = true) :
    Memory.wf (Memory.write m a v) = true := Memory.risesFrom_write v (Nat.zero_le a) ha hm

/-- The empty contents, those after a reset, are in canonical form. -/
@[simp] theorem Memory.wf_nil : Memory.wf [] = true := rfl

/-- The first `n` writes of a build. -/
theorem read_fill_upto (T : Table) (m : Memory) (n a : Nat) :
    Memory.read ((List.range n).foldl (fun m i => Memory.write m i (T (BitVec.ofNat 8 i))) m) a =
      if a < n then some (T (BitVec.ofNat 8 a)) else Memory.read m a := by
  induction n with
  | zero => simp
  | succ n ih =>
    rw [List.range_succ, List.foldl_append, List.foldl_cons, List.foldl_nil, Memory.read_write, ih]
    split_ifs <;> first | rfl | omega | (subst_vars; rfl)

theorem wf_fill_upto (T : Table) (m : Memory) (n : Nat) (hn : n ≤ 256) (hm : Memory.wf m = true) :
    Memory.wf ((List.range n).foldl (fun m i => Memory.write m i (T (BitVec.ofNat 8 i))) m) = true := by
  induction n with
  | zero => simpa using hm
  | succ n ih =>
    rw [List.range_succ, List.foldl_append, List.foldl_cons, List.foldl_nil]
    exact Memory.wf_write _ (by omega) (ih (by omega))

/-- After a fill with `T` every entry reads as `T` gives it. -/
theorem read_fillBank (T : Table) (m : Memory) (i : Byte) : Memory.read (fillBank T m) i.toNat = some (T i) := by
  have h := read_fill_upto T m 256 i.toNat
  rw [if_pos i.isLt, BitVec.ofNat_toNat, BitVec.setWidth_eq] at h
  unfold fillBank
  exact h

/-- A fill keeps the canonical form. -/
theorem wf_fillBank (T : Table) {m : Memory} (hm : Memory.wf m = true) : Memory.wf (fillBank T m) = true := by
  have h := wf_fill_upto T m 256 (by decide) hm
  unfold fillBank
  exact h

/-- A bank read depends only on the bank's contents and, for an unlisted entry, on the count of resets. -/
theorem bankRead_congr (b : BankId) (s t : State) (hm : bankOf b t = bankOf b s) (hr : t.resets = s.resets) (i : Byte) :
    bankRead b t i = bankRead b s i := by
  simp only [bankRead, unlistedEntry, hm, hr]

@[simp] theorem bankOf_normal (s : State) : bankOf .normal s = s.tblN := rfl
@[simp] theorem bankOf_reflected (s : State) : bankOf .reflected s = s.tblR := rfl

theorem bankRead_normal_congr (s t : State) (hm : t.tblN = s.tblN) (hr : t.resets = s.resets) (i : Byte) :
    bankRead .normal t i = bankRead .normal s i := bankRead_congr .normal s t hm hr i

theorem bankRead_reflected_congr (s t : State) (hm : t.tblR = s.tblR) (hr : t.resets = s.resets) (i : Byte) :
    bankRead .reflected t i = bankRead .reflected s i := bankRead_congr .reflected s t hm hr i

theorem bankRead_of_filled (b : BankId) {s : State} {T : Table} {m : Memory} (hm : bankOf b s = fillBank T m) (i : Byte) :
    bankRead b s i = T i := by
  simp only [bankRead, hm, read_fillBank]

/-- `TBL_N` after a fill reads as the table it was filled with. -/
theorem bankRead_normal_filled (s : State) {T : Table} {m : Memory} (hm : s.tblN = fillBank T m) (i : Byte) :
    bankRead .normal s i = T i := bankRead_of_filled .normal hm i

/-- `TBL_R` after a fill reads as the table it was filled with. -/
theorem bankRead_reflected_filled (s : State) {T : Table} {m : Memory} (hm : s.tblR = fillBank T m) (i : Byte) :
    bankRead .reflected s i = T i := bankRead_of_filled .reflected hm i

end Sys2Proof.Machine
end

