-- ==== Sys2Proof/Laws/State.lean ====
section
/-! SUPPORT. One lemma for each field after each named update of the state, true by `rfl`, so that no later proof unfolds one. -/

namespace Sys2Proof.Machine

/-! `emitAll ws s` -/

@[simp] theorem emitAll_phase (ws : List IoWord) (s : State) : (emitAll ws s).phase = s.phase := rfl
@[simp] theorem emitAll_op (ws : List IoWord) (s : State) : (emitAll ws s).op = s.op := rfl
@[simp] theorem emitAll_acc (ws : List IoWord) (s : State) : (emitAll ws s).acc = s.acc := rfl
@[simp] theorem emitAll_tblN (ws : List IoWord) (s : State) : (emitAll ws s).tblN = s.tblN := rfl
@[simp] theorem emitAll_tblR (ws : List IoWord) (s : State) : (emitAll ws s).tblR = s.tblR := rfl
@[simp] theorem emitAll_tvN (ws : List IoWord) (s : State) : (emitAll ws s).tvN = s.tvN := rfl
@[simp] theorem emitAll_tvR (ws : List IoWord) (s : State) : (emitAll ws s).tvR = s.tvR := rfl
@[simp] theorem emitAll_cause (ws : List IoWord) (s : State) : (emitAll ws s).cause = s.cause := rfl
@[simp] theorem emitAll_input (ws : List IoWord) (s : State) : (emitAll ws s).input = s.input := rfl
@[simp] theorem emitAll_out (ws : List IoWord) (s : State) : (emitAll ws s).out = s.out ++ ws := rfl
@[simp] theorem emitAll_taken (ws : List IoWord) (s : State) : (emitAll ws s).taken = s.taken := rfl
@[simp] theorem emitAll_resets (ws : List IoWord) (s : State) : (emitAll ws s).resets = s.resets := rfl

/-! `emit w s` -/

@[simp] theorem emit_phase (w : IoWord) (s : State) : (emit w s).phase = s.phase := rfl
@[simp] theorem emit_op (w : IoWord) (s : State) : (emit w s).op = s.op := rfl
@[simp] theorem emit_acc (w : IoWord) (s : State) : (emit w s).acc = s.acc := rfl
@[simp] theorem emit_tblN (w : IoWord) (s : State) : (emit w s).tblN = s.tblN := rfl
@[simp] theorem emit_tblR (w : IoWord) (s : State) : (emit w s).tblR = s.tblR := rfl
@[simp] theorem emit_tvN (w : IoWord) (s : State) : (emit w s).tvN = s.tvN := rfl
@[simp] theorem emit_tvR (w : IoWord) (s : State) : (emit w s).tvR = s.tvR := rfl
@[simp] theorem emit_cause (w : IoWord) (s : State) : (emit w s).cause = s.cause := rfl
@[simp] theorem emit_input (w : IoWord) (s : State) : (emit w s).input = s.input := rfl
@[simp] theorem emit_out (w : IoWord) (s : State) : (emit w s).out = s.out ++ [w] := rfl
@[simp] theorem emit_taken (w : IoWord) (s : State) : (emit w s).taken = s.taken := rfl
@[simp] theorem emit_resets (w : IoWord) (s : State) : (emit w s).resets = s.resets := rfl

/-! `raiseFault k s` -/

@[simp] theorem raiseFault_phase (k : FaultKind) (s : State) : (raiseFault k s).phase = .fault := rfl
@[simp] theorem raiseFault_op (k : FaultKind) (s : State) : (raiseFault k s).op = s.op := rfl
@[simp] theorem raiseFault_acc (k : FaultKind) (s : State) : (raiseFault k s).acc = s.acc := rfl
@[simp] theorem raiseFault_tblN (k : FaultKind) (s : State) : (raiseFault k s).tblN = s.tblN := rfl
@[simp] theorem raiseFault_tblR (k : FaultKind) (s : State) : (raiseFault k s).tblR = s.tblR := rfl
@[simp] theorem raiseFault_tvN (k : FaultKind) (s : State) : (raiseFault k s).tvN = s.tvN := rfl
@[simp] theorem raiseFault_tvR (k : FaultKind) (s : State) : (raiseFault k s).tvR = s.tvR := rfl
@[simp] theorem raiseFault_cause (k : FaultKind) (s : State) : (raiseFault k s).cause = faultCode k := rfl
@[simp] theorem raiseFault_input (k : FaultKind) (s : State) : (raiseFault k s).input = s.input := rfl
@[simp] theorem raiseFault_out (k : FaultKind) (s : State) : (raiseFault k s).out = s.out ++ [faultWord (faultCode k)] := rfl
@[simp] theorem raiseFault_taken (k : FaultKind) (s : State) : (raiseFault k s).taken = s.taken := rfl
@[simp] theorem raiseFault_resets (k : FaultKind) (s : State) : (raiseFault k s).resets = s.resets := rfl

/-! `applyReset s` -/

@[simp] theorem applyReset_phase (s : State) : (applyReset s).phase = .idle := rfl
@[simp] theorem applyReset_op (s : State) : (applyReset s).op = Config.opAfterReset (s.resets + 1) := rfl
@[simp] theorem applyReset_acc (s : State) : (applyReset s).acc = Config.accAfterReset (s.resets + 1) := rfl
@[simp] theorem applyReset_tblN (s : State) : (applyReset s).tblN = [] := rfl
@[simp] theorem applyReset_tblR (s : State) : (applyReset s).tblR = [] := rfl
@[simp] theorem applyReset_tvN (s : State) : (applyReset s).tvN = false := rfl
@[simp] theorem applyReset_tvR (s : State) : (applyReset s).tvR = false := rfl
@[simp] theorem applyReset_cause (s : State) : (applyReset s).cause = 0 := rfl
@[simp] theorem applyReset_input (s : State) : (applyReset s).input = s.input := rfl
@[simp] theorem applyReset_out (s : State) : (applyReset s).out = s.out := rfl
@[simp] theorem applyReset_taken (s : State) : (applyReset s).taken = s.taken := rfl
@[simp] theorem applyReset_resets (s : State) : (applyReset s).resets = s.resets + 1 := rfl

/-! `startMessage o s` -/

@[simp] theorem startMessage_phase (o : ChecksumOp) (s : State) : (startMessage o s).phase = .msg := rfl
@[simp] theorem startMessage_op (o : ChecksumOp) (s : State) : (startMessage o s).op = o := rfl
@[simp] theorem startMessage_acc (o : ChecksumOp) (s : State) : (startMessage o s).acc = Config.INIT := rfl
@[simp] theorem startMessage_tblN (o : ChecksumOp) (s : State) : (startMessage o s).tblN = s.tblN := rfl
@[simp] theorem startMessage_tblR (o : ChecksumOp) (s : State) : (startMessage o s).tblR = s.tblR := rfl
@[simp] theorem startMessage_tvN (o : ChecksumOp) (s : State) : (startMessage o s).tvN = s.tvN := rfl
@[simp] theorem startMessage_tvR (o : ChecksumOp) (s : State) : (startMessage o s).tvR = s.tvR := rfl
@[simp] theorem startMessage_cause (o : ChecksumOp) (s : State) : (startMessage o s).cause = s.cause := rfl
@[simp] theorem startMessage_input (o : ChecksumOp) (s : State) : (startMessage o s).input = s.input := rfl
@[simp] theorem startMessage_out (o : ChecksumOp) (s : State) : (startMessage o s).out = s.out := rfl
@[simp] theorem startMessage_taken (o : ChecksumOp) (s : State) : (startMessage o s).taken = s.taken := rfl
@[simp] theorem startMessage_resets (o : ChecksumOp) (s : State) : (startMessage o s).resets = s.resets := rfl

/-! `byteStep b s` -/

@[simp] theorem byteStep_phase (b : Byte) (s : State) : (byteStep b s).phase = s.phase := rfl
@[simp] theorem byteStep_op (b : Byte) (s : State) : (byteStep b s).op = s.op := rfl
@[simp] theorem byteStep_acc (b : Byte) (s : State) : (byteStep b s).acc = accAfterByte b s := rfl
@[simp] theorem byteStep_tblN (b : Byte) (s : State) : (byteStep b s).tblN = s.tblN := rfl
@[simp] theorem byteStep_tblR (b : Byte) (s : State) : (byteStep b s).tblR = s.tblR := rfl
@[simp] theorem byteStep_tvN (b : Byte) (s : State) : (byteStep b s).tvN = s.tvN := rfl
@[simp] theorem byteStep_tvR (b : Byte) (s : State) : (byteStep b s).tvR = s.tvR := rfl
@[simp] theorem byteStep_cause (b : Byte) (s : State) : (byteStep b s).cause = s.cause := rfl
@[simp] theorem byteStep_input (b : Byte) (s : State) : (byteStep b s).input = s.input := rfl
@[simp] theorem byteStep_out (b : Byte) (s : State) : (byteStep b s).out = s.out := rfl
@[simp] theorem byteStep_taken (b : Byte) (s : State) : (byteStep b s).taken = s.taken := rfl
@[simp] theorem byteStep_resets (b : Byte) (s : State) : (byteStep b s).resets = s.resets := rfl

/-! `endMessage s` -/

@[simp] theorem endMessage_phase (s : State) : (endMessage s).phase = .idle := rfl
@[simp] theorem endMessage_op (s : State) : (endMessage s).op = s.op := rfl
@[simp] theorem endMessage_acc (s : State) : (endMessage s).acc = s.acc := rfl
@[simp] theorem endMessage_tblN (s : State) : (endMessage s).tblN = s.tblN := rfl
@[simp] theorem endMessage_tblR (s : State) : (endMessage s).tblR = s.tblR := rfl
@[simp] theorem endMessage_tvN (s : State) : (endMessage s).tvN = s.tvN := rfl
@[simp] theorem endMessage_tvR (s : State) : (endMessage s).tvR = s.tvR := rfl
@[simp] theorem endMessage_cause (s : State) : (endMessage s).cause = s.cause := rfl
@[simp] theorem endMessage_input (s : State) : (endMessage s).input = s.input := rfl
@[simp] theorem endMessage_out (s : State) : (endMessage s).out = s.out ++ [lastWord (checksumResult s.op s)] := rfl
@[simp] theorem endMessage_taken (s : State) : (endMessage s).taken = s.taken := rfl
@[simp] theorem endMessage_resets (s : State) : (endMessage s).resets = s.resets := rfl

/-! `storeBank .normal m s` -/

@[simp] theorem storeNormal_phase (m : Memory) (s : State) : (storeBank .normal m s).phase = s.phase := rfl
@[simp] theorem storeNormal_op (m : Memory) (s : State) : (storeBank .normal m s).op = s.op := rfl
@[simp] theorem storeNormal_acc (m : Memory) (s : State) : (storeBank .normal m s).acc = s.acc := rfl
@[simp] theorem storeNormal_tblN (m : Memory) (s : State) : (storeBank .normal m s).tblN = m := rfl
@[simp] theorem storeNormal_tblR (m : Memory) (s : State) : (storeBank .normal m s).tblR = s.tblR := rfl
@[simp] theorem storeNormal_tvN (m : Memory) (s : State) : (storeBank .normal m s).tvN = s.tvN := rfl
@[simp] theorem storeNormal_tvR (m : Memory) (s : State) : (storeBank .normal m s).tvR = s.tvR := rfl
@[simp] theorem storeNormal_cause (m : Memory) (s : State) : (storeBank .normal m s).cause = s.cause := rfl
@[simp] theorem storeNormal_input (m : Memory) (s : State) : (storeBank .normal m s).input = s.input := rfl
@[simp] theorem storeNormal_out (m : Memory) (s : State) : (storeBank .normal m s).out = s.out := rfl
@[simp] theorem storeNormal_taken (m : Memory) (s : State) : (storeBank .normal m s).taken = s.taken := rfl
@[simp] theorem storeNormal_resets (m : Memory) (s : State) : (storeBank .normal m s).resets = s.resets := rfl

/-! `storeBank .reflected m s` -/

@[simp] theorem storeReflected_phase (m : Memory) (s : State) : (storeBank .reflected m s).phase = s.phase := rfl
@[simp] theorem storeReflected_op (m : Memory) (s : State) : (storeBank .reflected m s).op = s.op := rfl
@[simp] theorem storeReflected_acc (m : Memory) (s : State) : (storeBank .reflected m s).acc = s.acc := rfl
@[simp] theorem storeReflected_tblN (m : Memory) (s : State) : (storeBank .reflected m s).tblN = s.tblN := rfl
@[simp] theorem storeReflected_tblR (m : Memory) (s : State) : (storeBank .reflected m s).tblR = m := rfl
@[simp] theorem storeReflected_tvN (m : Memory) (s : State) : (storeBank .reflected m s).tvN = s.tvN := rfl
@[simp] theorem storeReflected_tvR (m : Memory) (s : State) : (storeBank .reflected m s).tvR = s.tvR := rfl
@[simp] theorem storeReflected_cause (m : Memory) (s : State) : (storeBank .reflected m s).cause = s.cause := rfl
@[simp] theorem storeReflected_input (m : Memory) (s : State) : (storeBank .reflected m s).input = s.input := rfl
@[simp] theorem storeReflected_out (m : Memory) (s : State) : (storeBank .reflected m s).out = s.out := rfl
@[simp] theorem storeReflected_taken (m : Memory) (s : State) : (storeBank .reflected m s).taken = s.taken := rfl
@[simp] theorem storeReflected_resets (m : Memory) (s : State) : (storeBank .reflected m s).resets = s.resets := rfl

/-! `markBuilt .normal s` -/

@[simp] theorem markNormal_phase (s : State) : (markBuilt .normal s).phase = s.phase := rfl
@[simp] theorem markNormal_op (s : State) : (markBuilt .normal s).op = s.op := rfl
@[simp] theorem markNormal_acc (s : State) : (markBuilt .normal s).acc = s.acc := rfl
@[simp] theorem markNormal_tblN (s : State) : (markBuilt .normal s).tblN = s.tblN := rfl
@[simp] theorem markNormal_tblR (s : State) : (markBuilt .normal s).tblR = s.tblR := rfl
@[simp] theorem markNormal_tvN (s : State) : (markBuilt .normal s).tvN = true := rfl
@[simp] theorem markNormal_tvR (s : State) : (markBuilt .normal s).tvR = s.tvR := rfl
@[simp] theorem markNormal_cause (s : State) : (markBuilt .normal s).cause = s.cause := rfl
@[simp] theorem markNormal_input (s : State) : (markBuilt .normal s).input = s.input := rfl
@[simp] theorem markNormal_out (s : State) : (markBuilt .normal s).out = s.out := rfl
@[simp] theorem markNormal_taken (s : State) : (markBuilt .normal s).taken = s.taken := rfl
@[simp] theorem markNormal_resets (s : State) : (markBuilt .normal s).resets = s.resets := rfl

/-! `markBuilt .reflected s` -/

@[simp] theorem markReflected_phase (s : State) : (markBuilt .reflected s).phase = s.phase := rfl
@[simp] theorem markReflected_op (s : State) : (markBuilt .reflected s).op = s.op := rfl
@[simp] theorem markReflected_acc (s : State) : (markBuilt .reflected s).acc = s.acc := rfl
@[simp] theorem markReflected_tblN (s : State) : (markBuilt .reflected s).tblN = s.tblN := rfl
@[simp] theorem markReflected_tblR (s : State) : (markBuilt .reflected s).tblR = s.tblR := rfl
@[simp] theorem markReflected_tvN (s : State) : (markBuilt .reflected s).tvN = s.tvN := rfl
@[simp] theorem markReflected_tvR (s : State) : (markBuilt .reflected s).tvR = true := rfl
@[simp] theorem markReflected_cause (s : State) : (markBuilt .reflected s).cause = s.cause := rfl
@[simp] theorem markReflected_input (s : State) : (markBuilt .reflected s).input = s.input := rfl
@[simp] theorem markReflected_out (s : State) : (markBuilt .reflected s).out = s.out := rfl
@[simp] theorem markReflected_taken (s : State) : (markBuilt .reflected s).taken = s.taken := rfl
@[simp] theorem markReflected_resets (s : State) : (markBuilt .reflected s).resets = s.resets := rfl

/-! `offerCommand w s` -/

@[simp] theorem offerCommand_phase (w : IoWord) (s : State) : (offerCommand w s).phase = .idle := rfl
@[simp] theorem offerCommand_op (w : IoWord) (s : State) : (offerCommand w s).op = s.op := rfl
@[simp] theorem offerCommand_acc (w : IoWord) (s : State) : (offerCommand w s).acc = s.acc := rfl
@[simp] theorem offerCommand_tblN (w : IoWord) (s : State) : (offerCommand w s).tblN = s.tblN := rfl
@[simp] theorem offerCommand_tblR (w : IoWord) (s : State) : (offerCommand w s).tblR = s.tblR := rfl
@[simp] theorem offerCommand_tvN (w : IoWord) (s : State) : (offerCommand w s).tvN = s.tvN := rfl
@[simp] theorem offerCommand_tvR (w : IoWord) (s : State) : (offerCommand w s).tvR = s.tvR := rfl
@[simp] theorem offerCommand_cause (w : IoWord) (s : State) : (offerCommand w s).cause = s.cause := rfl
@[simp] theorem offerCommand_input (w : IoWord) (s : State) : (offerCommand w s).input = .word w :: s.input := rfl
@[simp] theorem offerCommand_out (w : IoWord) (s : State) : (offerCommand w s).out = s.out := rfl
@[simp] theorem offerCommand_taken (w : IoWord) (s : State) : (offerCommand w s).taken = s.taken := rfl
@[simp] theorem offerCommand_resets (w : IoWord) (s : State) : (offerCommand w s).resets = s.resets := rfl

/-! `takeWord s`: everything but `out` and `taken` stays. -/

theorem takeWord_nil (s : State) (h : s.out = []) : takeWord s = s := by
  simp only [takeWord, h]

theorem takeWord_cons (s : State) (w : IoWord) (ws : List IoWord) (h : s.out = w :: ws) :
    takeWord s = { s with out := ws, taken := s.taken ++ [w] } := by
  simp only [takeWord, h]

@[simp] theorem takeWord_phase (s : State) : (takeWord s).phase = s.phase := by
  unfold takeWord; split <;> rfl
@[simp] theorem takeWord_op (s : State) : (takeWord s).op = s.op := by
  unfold takeWord; split <;> rfl
@[simp] theorem takeWord_acc (s : State) : (takeWord s).acc = s.acc := by
  unfold takeWord; split <;> rfl
@[simp] theorem takeWord_tblN (s : State) : (takeWord s).tblN = s.tblN := by
  unfold takeWord; split <;> rfl
@[simp] theorem takeWord_tblR (s : State) : (takeWord s).tblR = s.tblR := by
  unfold takeWord; split <;> rfl
@[simp] theorem takeWord_tvN (s : State) : (takeWord s).tvN = s.tvN := by
  unfold takeWord; split <;> rfl
@[simp] theorem takeWord_tvR (s : State) : (takeWord s).tvR = s.tvR := by
  unfold takeWord; split <;> rfl
@[simp] theorem takeWord_cause (s : State) : (takeWord s).cause = s.cause := by
  unfold takeWord; split <;> rfl
@[simp] theorem takeWord_input (s : State) : (takeWord s).input = s.input := by
  unfold takeWord; split <;> rfl
@[simp] theorem takeWord_resets (s : State) : (takeWord s).resets = s.resets := by
  unfold takeWord; split <;> rfl

end Sys2Proof.Machine
end

