-- ==== Sys2Proof/Laws/Ops.lean ====
section
/-! SUPPORT. What each shared operation can do, said once: acceptance of a command, the start of a checksum, a build, the
data-word step, the step on a word, a reset inside a step. -/

namespace Sys2Proof.Machine

/-! Acceptance. -/

@[simp] theorem whenIdle_idle {s : State} (h : s.phase = .idle) (a : Answer) : whenIdle s a = a := by
  simp only [whenIdle, h]

@[simp] theorem whenIdle_msg {s : State} (h : s.phase = .msg) (a : Answer) :
    whenIdle s a = .next (raiseFault .illegalDataWord s) := by
  simp only [whenIdle, h]

@[simp] theorem whenIdle_fault {s : State} (h : s.phase = .fault) (a : Answer) :
    whenIdle s a = .fault .stuckInFaultPhase := by
  simp only [whenIdle, h]

/-- If a command answers a next state it was accepted, or it came inside a message and was taken as a bad data word. -/
theorem whenIdle_next {s t : State} {a : Answer} (h : whenIdle s a = .next t) :
    (s.phase = .idle ∧ a = .next t) ∨ (s.phase = .msg ∧ t = raiseFault .illegalDataWord s) := by
  unfold whenIdle at h
  split at h
  · exact .inl ⟨‹_›, h⟩
  · cases h; exact .inr ⟨‹_›, rfl⟩
  · cases h

/-- Everything a checksum command word can do. -/
theorem beginChecksum_next {op : ChecksumOp} {s t : State} (h : beginChecksum op s = .next t) :
    (s.phase = .idle ∧ tableReady op s = true ∧ t = startMessage op s) ∨
    (s.phase = .idle ∧ tableReady op s = false ∧ t = raiseFault .tableNotBuilt s) ∨
    (s.phase = .msg ∧ t = raiseFault .illegalDataWord s) := by
  obtain ⟨hp, ha⟩ | hm := whenIdle_next h
  · by_cases hr : tableReady op s = true
    · rw [if_pos hr] at ha; cases ha; exact .inl ⟨hp, hr, rfl⟩
    · rw [if_neg hr] at ha; cases ha; exact .inr (.inl ⟨hp, by simpa using hr, rfl⟩)
  · exact .inr (.inr hm)

theorem beginChecksum_ready {op : ChecksumOp} {s : State} (hp : s.phase = .idle) (hr : tableReady op s = true) :
    beginChecksum op s = .next (startMessage op s) := by
  simp only [beginChecksum, whenIdle_idle hp, hr, if_true]

theorem beginChecksum_not_ready {op : ChecksumOp} {s : State} (hp : s.phase = .idle) (hr : tableReady op s = false) :
    beginChecksum op s = .next (raiseFault .tableNotBuilt s) := by
  simp [beginChecksum, whenIdle_idle hp, hr]

@[simp] theorem tableReady_crc8s (s : State) : tableReady .crc8s s = true := rfl
@[simp] theorem tableReady_crc8t (s : State) : tableReady .crc8t s = s.tvN := rfl
@[simp] theorem tableReady_crc8sr (s : State) : tableReady .crc8sr s = true := rfl
@[simp] theorem tableReady_crc8tr (s : State) : tableReady .crc8tr s = s.tvR := rfl

/-! Builds. -/

theorem bankWords_eq_of_reads (b : BankId) {s : State} {T : Table} (h : ∀ i, bankRead b s i = T i) :
    bankWords b s = tableWords T := by
  simp only [bankWords, tableWords, h]

@[simp] theorem bankOf_markBuilt_storeBank (b : BankId) (m : Memory) (s : State) :
    bankOf b (markBuilt b (storeBank b m s)) = m := by
  cases b <;> rfl

/-- The whole effect of BLDT's build. -/
theorem buildBank_normal (T : Table) (s : State) :
    buildBank .normal T s = { s with tblN := fillBank T s.tblN, tvN := true, out := s.out ++ tableWords T } := by
  have h : bankWords .normal (markBuilt .normal (storeBank .normal (fillBank T (bankOf .normal s)) s)) = tableWords T :=
    bankWords_eq_of_reads .normal fun i => bankRead_of_filled .normal (bankOf_markBuilt_storeBank .normal _ s) i
  rw [buildBank, h]
  simp only [emitAll, markBuilt, storeBank, bankOf]

/-- The whole effect of BLDTR's build. -/
theorem buildBank_reflected (T : Table) (s : State) :
    buildBank .reflected T s = { s with tblR := fillBank T s.tblR, tvR := true, out := s.out ++ tableWords T } := by
  have h : bankWords .reflected (markBuilt .reflected (storeBank .reflected (fillBank T (bankOf .reflected s)) s)) = tableWords T :=
    bankWords_eq_of_reads .reflected fun i => bankRead_of_filled .reflected (bankOf_markBuilt_storeBank .reflected _ s) i
  rw [buildBank, h]
  simp only [emitAll, markBuilt, storeBank, bankOf]

/-! The step on a word. -/

@[simp] theorem consumeWord_idle {s : State} (h : s.phase = .idle) (w : IoWord) : consumeWord w s = commandStep w s := by
  simp only [consumeWord, h]

@[simp] theorem consumeWord_msg {s : State} (h : s.phase = .msg) (w : IoWord) : consumeWord w s = dataStep w s := by
  simp only [consumeWord, h]

@[simp] theorem consumeWord_fault {s : State} (h : s.phase = .fault) (w : IoWord) :
    consumeWord w s = .fault .stuckInFaultPhase := by
  simp only [consumeWord, h]

theorem commandStep_ok {w : IoWord} {i : Instr} (h : decode w = .ok i) (s : State) : commandStep w s = exec i s := by
  simp only [commandStep, h]

theorem commandStep_error {w : IoWord} {e : CommandError} (h : decode w = .error e) (s : State) :
    commandStep w s = .next (raiseFault .illegalCommand s) := by
  simp only [commandStep, h]

theorem dataStep_ok {w : IoWord} {d : DataWord} (h : decodeData w = .ok d) (s : State) :
    dataStep w s = .next (execData d s) := by
  simp only [dataStep, h]

theorem dataStep_error {w : IoWord} {e : DataError} (h : decodeData w = .error e) (s : State) :
    dataStep w s = .next (raiseFault .illegalDataWord s) := by
  simp only [dataStep, h]

/-- Everything a meaning can do from `PHASE = IDLE`. -/
theorem exec_idle {s : State} (hp : s.phase = .idle) (i : Instr) :
    (∃ v, i = .reflect8 v ∧ exec i s = .next (emit (lastWord (reflect8 v)) s)) ∨
    (∃ op, tableReady op s = true ∧ exec i s = .next (startMessage op s)) ∨
    (∃ op, tableReady op s = false ∧ exec i s = .next (raiseFault .tableNotBuilt s)) ∨
    (∃ q, i = .bldt q ∧ exec i s = .next (buildBank .normal (tableN q) s)) ∨
    (∃ q, i = .bldtr q ∧ exec i s = .next (buildBank .reflected (tableR q) s)) := by
  have begins : ∀ op, exec i s = beginChecksum op s →
      (∃ op, tableReady op s = true ∧ exec i s = .next (startMessage op s)) ∨
      (∃ op, tableReady op s = false ∧ exec i s = .next (raiseFault .tableNotBuilt s)) := by
    intro op h
    by_cases hr : tableReady op s = true
    · exact .inl ⟨op, hr, h.trans (beginChecksum_ready hp hr)⟩
    · exact .inr ⟨op, by simpa using hr, h.trans (beginChecksum_not_ready hp (by simpa using hr))⟩
  cases i with
  | reflect8 v => exact .inl ⟨v, rfl, whenIdle_idle hp _⟩
  | crc8s => exact .inr ((begins .crc8s rfl).imp_right .inl)
  | bldt q => exact .inr (.inr (.inr (.inl ⟨q, rfl, whenIdle_idle hp _⟩)))
  | crc8t => exact .inr ((begins .crc8t rfl).imp_right .inl)
  | crc8sr => exact .inr ((begins .crc8sr rfl).imp_right .inl)
  | bldtr q => exact .inr (.inr (.inr (.inr ⟨q, rfl, whenIdle_idle hp _⟩)))
  | crc8tr => exact .inr ((begins .crc8tr rfl).imp_right .inl)

/-- Everything the step on a word can do: one case for each kind of effect. -/
theorem consumeWord_next {w : IoWord} {s t : State} (h : consumeWord w s = .next t) :
    (∃ v, s.phase = .idle ∧ decode w = .ok (.reflect8 v) ∧ t = emit (lastWord (reflect8 v)) s) ∨
    (∃ op, s.phase = .idle ∧ tableReady op s = true ∧ t = startMessage op s) ∨
    (∃ q, s.phase = .idle ∧ decode w = .ok (.bldt q) ∧ t = buildBank .normal (tableN q) s) ∨
    (∃ q, s.phase = .idle ∧ decode w = .ok (.bldtr q) ∧ t = buildBank .reflected (tableR q) s) ∨
    (∃ b, s.phase = .msg ∧ decodeData w = .ok (.byte b) ∧ t = byteStep b s) ∨
    (s.phase = .msg ∧ decodeData w = .ok .endOfMessage ∧ t = endMessage s) ∨
    (∃ k, s.phase ≠ .fault ∧ t = raiseFault k s) := by
  cases hp : s.phase with
  | idle =>
    rw [consumeWord_idle hp] at h
    cases hd : decode w with
    | error e =>
      rw [commandStep_error hd] at h; cases h
      exact .inr (.inr (.inr (.inr (.inr (.inr ⟨_, by simp, rfl⟩)))))
    | ok i =>
      rw [commandStep_ok hd] at h
      obtain ⟨v, rfl, he⟩ | ⟨op, hr, he⟩ | ⟨op, hr, he⟩ | ⟨q, rfl, he⟩ | ⟨q, rfl, he⟩ := exec_idle hp i <;>
        rw [he] at h <;> cases h
      · exact .inl ⟨v, rfl, rfl, rfl⟩
      · exact .inr (.inl ⟨op, rfl, hr, rfl⟩)
      · exact .inr (.inr (.inr (.inr (.inr (.inr ⟨_, by simp, rfl⟩)))))
      · exact .inr (.inr (.inl ⟨q, rfl, rfl, rfl⟩))
      · exact .inr (.inr (.inr (.inl ⟨q, rfl, rfl, rfl⟩)))
  | msg =>
    rw [consumeWord_msg hp] at h
    cases hd : decodeData w with
    | error e =>
      rw [dataStep_error hd] at h; cases h
      exact .inr (.inr (.inr (.inr (.inr (.inr ⟨_, by simp, rfl⟩)))))
    | ok d =>
      rw [dataStep_ok hd] at h; cases h
      cases d with
      | byte b => exact .inr (.inr (.inr (.inr (.inl ⟨b, rfl, rfl, rfl⟩))))
      | endOfMessage => exact .inr (.inr (.inr (.inr (.inr (.inl ⟨rfl, rfl, rfl⟩)))))
  | fault => rw [consumeWord_fault hp] at h; cases h

/-- In a phase that has steps the step on a word answers a next state. -/
theorem consumeWord_total {s : State} (hp : s.phase ≠ .fault) (w : IoWord) : ∃ t, consumeWord w s = .next t := by
  cases h : s.phase with
  | idle =>
    rw [consumeWord_idle h]
    cases hd : decode w with
    | error e => exact ⟨_, commandStep_error hd s⟩
    | ok i =>
      rw [commandStep_ok hd]
      obtain ⟨_, _, he⟩ | ⟨_, _, he⟩ | ⟨_, _, he⟩ | ⟨_, _, he⟩ | ⟨_, _, he⟩ := exec_idle h i <;> exact ⟨_, he⟩
  | msg =>
    rw [consumeWord_msg h]
    cases hd : decodeData w with
    | error e => exact ⟨_, dataStep_error hd s⟩
    | ok d => exact ⟨_, dataStep_ok hd s⟩
  | fault => exact absurd h hp

/-! One step of the machine, by the host's next event. -/

theorem step_of_word {s : State} {w : IoWord} {rest} (h : s.input = .word w :: rest) :
    step s = consumeWord w { s with input := rest } := by
  simp only [step, advance, h, hostEventStep]

theorem step_of_rst {s : State} {rest} (h : s.input = .rst :: rest) :
    step s = .next (applyReset { s with input := rest }) := by
  simp only [step, advance, h, hostEventStep]

theorem step_of_rstDuring {s : State} {w : IoWord} {n : Nat} {rest} (h : s.input = .rstDuring w n :: rest) :
    step s = resetDuring w n { s with input := rest } := by
  simp only [step, advance, h, hostEventStep]

theorem step_of_take {s : State} {rest} (h : s.input = .take :: rest) :
    step s = .next (takeWord { s with input := rest }) := by
  simp only [step, advance, h, hostEventStep]

theorem step_of_nothing {s : State} (h : s.input = []) : step s = waitForHost s := by
  simp only [step, advance, h]

/-- Everything a reset inside a step can do. -/
theorem resetDuring_next {w : IoWord} {n : Nat} {s t : State} (h : resetDuring w n s = .next t) :
    (∃ u, consumeWord w { s with out := [] } = .next u ∧ t = applyReset (emitAll (u.out.take n) s)) ∨
    (s.phase = .fault ∧ t = applyReset { s with input := .word w :: s.input }) := by
  unfold resetDuring at h
  split at h
  · cases h; exact .inl ⟨_, ‹_›, rfl⟩
  · rename_i hc
    cases h
    refine .inr ⟨?_, rfl⟩
    by_contra hp
    obtain ⟨u, hu⟩ := consumeWord_total (s := { s with out := [] }) hp w
    rw [hu] at hc; cases hc
  · cases h

/-- Outside `PHASE = FAULT` every event of the host is answered by a next state. -/
theorem step_total {s : State} (hp : s.phase ≠ .fault) : ∃ t, step s = .next t := by
  match hi : s.input with
  | [] =>
    rw [step_of_nothing hi]
    unfold waitForHost
    split
    · exact ⟨_, rfl⟩
    · exact ⟨_, rfl⟩
    · contradiction
  | .word w :: rest =>
    rw [step_of_word hi]
    exact consumeWord_total (s := { s with input := rest }) hp w
  | .rst :: rest => exact ⟨_, step_of_rst hi⟩
  | .rstDuring w n :: rest =>
    obtain ⟨u, hu⟩ := consumeWord_total (s := { s with input := rest, out := [] }) hp w
    rw [step_of_rstDuring hi, resetDuring, hu]
    exact ⟨_, rfl⟩
  | .take :: rest => exact ⟨_, step_of_take hi⟩

/-- Everything one step can do. -/
theorem step_next {s t : State} (h : step s = .next t) :
    (s.input = [] ∧ s.phase ≠ .fault ∧ t = s) ∨
    (∃ w rest, s.input = .word w :: rest ∧ consumeWord w { s with input := rest } = .next t) ∨
    (∃ rest, s.input = .rst :: rest ∧ t = applyReset { s with input := rest }) ∨
    (∃ w n rest, s.input = .rstDuring w n :: rest ∧ resetDuring w n { s with input := rest } = .next t) ∨
    (∃ rest, s.input = .take :: rest ∧ t = takeWord { s with input := rest }) := by
  match hi : s.input with
  | [] =>
    rw [step_of_nothing hi] at h
    unfold waitForHost at h
    split at h <;> cases h <;> exact .inl ⟨rfl, by simp_all, rfl⟩
  | .word w :: rest => rw [step_of_word hi] at h; exact .inr (.inl ⟨w, rest, rfl, h⟩)
  | .rst :: rest => rw [step_of_rst hi] at h; cases h; exact .inr (.inr (.inl ⟨rest, rfl, rfl⟩))
  | .rstDuring w n :: rest => rw [step_of_rstDuring hi] at h; exact .inr (.inr (.inr (.inl ⟨w, n, rest, rfl, h⟩)))
  | .take :: rest => rw [step_of_take hi] at h; cases h; exact .inr (.inr (.inr (.inr ⟨rest, rfl, rfl⟩)))

end Sys2Proof.Machine
end

