-- ==== Sys2Proof/Laws/PerInstr.lean ====
section
/-! SUPPORT. Facts about every command as syntax, one lemma for each constructor. -/

namespace Sys2Proof.Laws.EncodeLegal

/-- The command word of every instruction is one of the legal command words (R65, R66). -/
def Statement (i : Instr) : Prop := legalCommandWord (encode i) = true

theorem reflect8 (v : Byte) : Statement (.reflect8 v) := by
  revert v; unfold Statement; decide

theorem crc8s : Statement .crc8s := by
  unfold Statement; decide

theorem bldt (q : Byte) : Statement (.bldt q) := by
  revert q; unfold Statement; decide

theorem crc8t : Statement .crc8t := by
  unfold Statement; decide

theorem crc8sr : Statement .crc8sr := by
  unfold Statement; decide

theorem bldtr (q : Byte) : Statement (.bldtr q) := by
  revert q; unfold Statement; decide

theorem crc8tr : Statement .crc8tr := by
  unfold Statement; decide

end Sys2Proof.Laws.EncodeLegal
end

