-- ==== Sys2Proof/Laws/Run.lean ====
section
/-! SUPPORT. Runs of several steps, one step at a time, and the induction over a run packaged once. -/

namespace Sys2Proof.Machine

@[simp] theorem runSteps_zero (s : State) : runSteps 0 s = .next s := rfl

/-- A run goes on from the next state. -/
theorem runSteps_of_step {s t : State} (h : step s = .next t) (k : Nat) : runSteps (k + 1) s = runSteps k t := by
  simp only [runSteps, h]

/-- A run of `k + 1` steps that answers a next state took a first step that did. -/
theorem runSteps_succ {k : Nat} {s u : State} (h : runSteps (k + 1) s = .next u) :
    ∃ t, step s = .next t ∧ runSteps k t = .next u := by
  unfold runSteps at h
  split at h
  · exact ⟨_, ‹_›, h⟩
  · cases h
  · cases h

/-- Two runs in a row. -/
theorem runSteps_trans {j k : Nat} {s t : State} {a : Answer} (h : runSteps j s = .next t) (h' : runSteps k t = a) :
    runSteps (j + k) s = a := by
  induction j generalizing s with
  | zero => cases h; simpa using h'
  | succ j ih =>
    obtain ⟨u, hu, hr⟩ := runSteps_succ h
    rw [show j + 1 + k = j + k + 1 by omega, runSteps_of_step hu]
    exact ih hr

/-- What holds at the start and is kept by every step holds after every run. -/
theorem runSteps_keeps {P : State → Prop} (hP : ∀ s t, P s → step s = .next t → P t) {k : Nat} {s t : State} (hs : P s)
    (h : runSteps k s = .next t) : P t := by
  induction k generalizing s with
  | zero => cases h; exact hs
  | succ k ih =>
    obtain ⟨u, hu, hr⟩ := runSteps_succ h
    exact ih (hP s u hs hu) hr

/-! The end of a run (R194). -/

/-- A run has failed exactly when the block is stuck in `PHASE = FAULT`: no further event is answered. -/
theorem runEnd_failed_iff_stuck (s : State) : runEnd s = some .failed ↔ step s = .fault .stuckInFaultPhase := by
  by_cases hp : s.phase = .fault
  · have hEnd : runEnd s = some .failed ↔ faultIsFinal s = true := by
      simp only [runEnd, hp]
      split <;> simp_all
    rw [hEnd]
    match hi : s.input with
    | [] => simp [faultIsFinal, hi, step_of_nothing hi, waitForHost, hp]
    | .word w :: rest =>
      rw [step_of_word hi, consumeWord_fault (s := { s with input := rest }) hp]
      simp [faultIsFinal, hi]
    | .rst :: rest => simp [faultIsFinal, hi, step_of_rst hi]
    | .rstDuring w n :: rest =>
      rw [step_of_rstDuring hi, resetDuring, consumeWord_fault (s := { s with input := rest, out := [] }) hp]
      simp [faultIsFinal, hi]
    | .take :: rest => simp [faultIsFinal, hi, step_of_take hi]
  · have hEnd : runEnd s ≠ some .failed := by
      unfold runEnd
      split <;> first | contradiction | (split <;> simp)
    obtain ⟨t, ht⟩ := step_total hp
    simp [hEnd, ht]

/-- A run that has ended stays as it ended: no later step answers another state. -/
theorem step_of_runEnd {s t : State} {e : RunEnd} (h : runEnd s = some e) (hs : step s = .next t) : t = s := by
  by_cases hp : s.phase = .fault
  · have hf : runEnd s = some .failed := by
      simp only [runEnd, hp] at h ⊢
      split at h <;> simp_all
    rw [(runEnd_failed_iff_stuck s).1 hf] at hs
    cases hs
  · have hi : s.input = [] := by
      unfold runEnd at h
      split at h
      · contradiction
      all_goals
        split at h
        · rename_i hc; exact hc.1
        · cases h
    obtain ⟨_, _, rfl⟩ | ⟨_, _, hw, _⟩ | ⟨_, hw, _⟩ | ⟨_, _, _, hw, _⟩ | ⟨_, hw, _⟩ := step_next hs
    · rfl
    all_goals rw [hi] at hw; cases hw

end Sys2Proof.Machine
end

