-- ==== Sys2Proof/Tests/Slice0.lean ====
section
/-! SUPPORT. Tests whose expected values stand in spec/ (95_test_vectors.md unless said otherwise), and a witness for the
hypotheses of every obligation that has some. -/

namespace Sys2Proof.Tests

open Sys2Proof Sys2Proof.Machine

/-! Small states. -/

/-- The reset state with the host's next events. -/
def idleWith (events : List HostEvent) : State := { State.reset with input := events }

/-- Inside a message of `op`, both banks built with the polynomials of the engines. -/
def msgWith (op : ChecksumOp) (acc : Byte) (events : List HostEvent) : State :=
  { State.reset with
    phase := .msg, op := op, acc := acc, input := events, tvN := true, tvR := true
    tblN := fillBank (tableN 0x9B) [], tblR := fillBank (tableR 0xD9) [] }

/-- `PHASE = IDLE`, both banks built with the polynomials of the engines. -/
def builtWith (events : List HostEvent) : State := { msgWith .crc8s 0x00 events with phase := .idle }

/-- In `PHASE = FAULT` after an illegal command, its report not yet taken. -/
def faultWith (events : List HostEvent) : State := faulted 1 (idleWith events)

/-- The part of a state the tests look at. -/
structure Seen where
  phase : Phase
  op : ChecksumOp
  acc : Byte
  cause : BitVec 4
  out : List IoWord
  deriving DecidableEq, Repr

/-- What a test sees of an answer. -/
def seen (a : Answer) : Option Seen := (nextState? a).map fun t => ⟨t.phase, t.op, t.acc, t.cause, t.out⟩

/-! Decoding: words written out bit by bit from the encodings of R61, R62 and R65. -/

theorem test_decode_reflect8 : decode 0b0001_0000_1001_1011 = .ok (.reflect8 0x9B) := by decide
theorem test_decode_crc8s : decode 0b0010_0000_0000_0000 = .ok .crc8s := by decide
theorem test_decode_bldt : decode 0b0011_0000_1001_1011 = .ok (.bldt 0x9B) := by decide
theorem test_decode_crc8t : decode 0b0100_0000_0000_0000 = .ok .crc8t := by decide
theorem test_decode_crc8sr : decode 0b0101_0000_0000_0000 = .ok .crc8sr := by decide
theorem test_decode_bldtr : decode 0b0110_0000_1101_1001 = .ok (.bldtr 0xD9) := by decide
theorem test_decode_crc8tr : decode 0b0111_0000_0000_0000 = .ok .crc8tr := by decide
theorem test_decode_byte : decodeData 0b0000_0000_1111_1111 = .ok (.byte 0xFF) := by decide
theorem test_decode_end : decodeData 0b1000_0000_0000_0000 = .ok .endOfMessage := by decide

/-- Section 3.7: command words that are illegal, each with the first test of R67 that fires. -/
theorem test_decode_illegal :
    decode 0x0FFF = .error .unassignedOPC ∧ decode 0xFFFF = .error .unassignedOPC ∧ decode 0x1100 = .error .nonzeroCZ ∧
    decode 0x3F9B = .error .nonzeroCZ ∧ decode 0x50FF = .error .nonzeroIMM8 ∧ decode 0x4001 = .error .nonzeroIMM8 := by
  decide

/-- Section 3.7: data words that are illegal. -/
theorem test_decode_data_illegal :
    decodeData 0x0100 = .error .nonzeroDZ ∧ decodeData 0x7F00 = .error .nonzeroDZ ∧ decodeData 0x8001 = .error .nonzeroBYTE ∧
    decodeData 0x80FF = .error .nonzeroBYTE ∧ decodeData 0x8100 = .error .nonzeroDZ ∧ decodeData 0x309B = .error .nonzeroDZ := by
  decide

/-- The words as the host numbers them. -/
theorem test_decode_table_word :
    decodeTableWord 16 0x309B = some (.bldt 0x9B) ∧ decodeTableWord 16 0x7000 = some .crc8tr ∧
    decodeTableWord 16 0x8000 = none ∧ decodeTableWord 24 0x2000 = none := by decide

/-- `withFetchWord` makes the very next step run the word, also for the two builds. -/
theorem test_fetch_word :
    seen (step (State.reset.withFetchWord 16 0x10D9)) = some ⟨.idle, .crc8s, 0x00, 0, [0x409B]⟩ ∧
    (nextState? (step (State.reset.withFetchWord 16 0x309B))).isSome = true ∧
    seen (step (State.reset.withFetchWord 16 0x7000)) = some ⟨.fault, .crc8s, 0x00, 3, [0xC300]⟩ := by
  decide +kernel

/-! Well-formedness: an ill-formed word for each check, and the word beside it that passes. -/

theorem test_wf_opc : opcAssigned 0x0000 = false ∧ opcAssigned 0x8000 = false ∧ legalCommandWord 0x8000 = false ∧
    legalCommandWord 0x7000 = true := by decide
theorem test_wf_cz : czIsZero 0x11FF = false ∧ legalCommandWord 0x11FF = false ∧ legalCommandWord 0x10FF = true := by decide
theorem test_wf_imm : immZeroWhereRequired 0x2001 = false ∧ legalCommandWord 0x2001 = false ∧ legalCommandWord 0x2000 = true := by
  decide
theorem test_wf_dz : dzIsZero 0x0100 = false ∧ legalDataWord 0x0100 = false ∧ legalDataWord 0x00FF = true := by decide
theorem test_wf_byte : byteZeroAtEnd 0x8001 = false ∧ legalDataWord 0x8001 = false ∧ legalDataWord 0x8000 = true := by decide
theorem test_wf_instr : (Instr.bldt 0xFF).wf = true ∧ legalCommandWord (encode (.bldt 0xFF)) = true := by decide

/-! The datapath. -/

/-- 00_scope.md R13, R14: their examples. -/
theorem test_shifts : shl1 0x80 = 0x00 ∧ shl1 0xC1 = 0x82 ∧ shl1 0xFF = 0xFE ∧ shr1 0x01 = 0x00 ∧ shr1 0xD9 = 0x6C ∧ shr1 0x80 = 0x40 := by
  decide

/-- Section 2.1, row `9x`. -/
theorem test_reflect_row : (List.range 16).map (fun c => reflect8 (BitVec.ofNat 8 (0x90 + c))) =
    [0x09, 0x89, 0x49, 0xC9, 0x29, 0xA9, 0x69, 0xE9, 0x19, 0x99, 0x59, 0xD9, 0x39, 0xB9, 0x79, 0xF9] := by decide

/-- Section 3.2: single rounds of both conventions. -/
theorem test_rounds :
    roundN 0x7F 0x9B = 0xFE ∧ roundN 0x80 0x9B = 0x9B ∧ roundN 0xC1 0x9B = 0x19 ∧
    roundR 0x80 0xD9 = 0x40 ∧ roundR 0x81 0xD9 = 0x99 ∧ roundR 0x7F 0xD9 = 0xE6 := by decide

/-- Section 3.2: the ends of the eight-round traces. -/
theorem test_bytes :
    byteN 0x80 0x9B = 0x0B ∧ byteN 0xA5 0x9B = 0x35 ∧ byteR 0x02 0xD9 = 0x13 ∧ byteR 0xA5 0xD9 = 0xAC := by decide +kernel

/-- Section 2.2, row `7x`. -/
theorem test_table_n_row : (List.range 16).map (fun c => tableN 0x9B (BitVec.ofNat 8 (0x70 + c))) =
    [0x9E, 0x05, 0x33, 0xA8, 0x5F, 0xC4, 0xF2, 0x69, 0x87, 0x1C, 0x2A, 0xB1, 0x46, 0xDD, 0xEB, 0x70] := by decide +kernel

/-- Section 2.3, row `Ex`. -/
theorem test_table_r_row : (List.range 16).map (fun c => tableR 0xD9 (BitVec.ofNat 8 (0xE0 + c))) =
    [0xEF, 0x3F, 0xFC, 0x2C, 0xC9, 0x19, 0xDA, 0x0A, 0xA3, 0x73, 0xB0, 0x60, 0x85, 0x55, 0x96, 0x46] := by decide +kernel

/-- "123456789". -/
def digits : Message := [0x31, 0x32, 0x33, 0x34, 0x35, 0x36, 0x37, 0x38, 0x39]

/-- Sections 3.3 to 3.6: "123456789" gives `EA` by all four functions; a table of another polynomial gives `F4` and `08`. -/
theorem test_checksums :
    crc8SeqN digits = 0xEA ∧ crc8Tbl digits (tableN 0x9B) = 0xEA ∧ crc8SeqR digits = 0xEA ∧
    crc8TblR digits (tableR 0xD9) = 0xEA ∧ crc8Tbl digits (tableN 0x07) = 0xF4 ∧ crc8TblR digits (tableR 0x9B) = 0x08 := by
  decide +kernel

/-- The accumulator after the 25 bytes of section 3.6 from index `k` on. -/
def after25 (acc : Byte) (k : Nat) : Byte :=
  (List.range 25).foldl (fun a j => byteN (a ^^^ BitVec.ofNat 8 (7 * (k + j) + 3)) 0x9B) acc

/-- Section 3.6: the checkpoints of the 125-byte message, the last its checksum. -/
theorem test_long_message :
    after25 0x00 0 = 0xB6 ∧ after25 0xB6 25 = 0xE8 ∧ after25 0xE8 50 = 0x8C ∧ after25 0x8C 75 = 0xCC ∧
    after25 0xCC 100 = 0x43 := by decide +kernel

/-- R149: the single-byte scenario, with the value the rule derives. -/
theorem test_single_byte :
    crc8SeqN [0x00] = 0x00 ∧ tableN 0x9B 0x00 = 0x00 ∧ crc8SeqN [0xFF] = 0x7B ∧ crc8Tbl [0xFF] (tableN 0x9B) = 0x7B ∧
    crc8SeqR [0xFF] = 0x7B ∧ crc8TblR [0xFF] (tableR 0xD9) = 0x7B := by decide +kernel

/-- R131: what the convention mix-up computes at the function level. -/
theorem test_mix_up : crc8TblR [0x31] (tableN 0x9B) = 0xCB ∧ crc8Tbl [0x31] (tableR 0xD9) = 0xCB := by decide +kernel

/-! One step of each command. -/

/-- R81's example, and section 3.1's illegal neighbour. -/
theorem test_reflect8 :
    seen (step (idleWith [.word 0x109B])) = some ⟨.idle, .crc8s, 0x00, 0, [0x40D9]⟩ ∧
    seen (step (idleWith [.word 0x11FF])) = some ⟨.fault, .crc8s, 0x00, 1, [0xC100]⟩ := by decide

/-- R93: the command word clears `ACC`. -/
theorem test_crc8s_command :
    seen (step { idleWith [.word 0x2000] with op := .crc8tr, acc := 0x55 }) = some ⟨.msg, .crc8s, 0x00, 0, []⟩ := by decide

/-- R93's example: `CD ^ 32 = FF`, then `7B`; the end of the message returns `ACC` and leaves it. -/
theorem test_crc8s_data :
    seen (step (msgWith .crc8s 0xCD [.word 0x0032])) = some ⟨.msg, .crc8s, 0x7B, 0, []⟩ ∧
    seen (step (msgWith .crc8s 0x7B [.word 0x8000])) = some ⟨.idle, .crc8s, 0x7B, 0, [0x407B]⟩ := by decide +kernel

/-- R118's example, with the reflected result word and the unreflected register. -/
theorem test_crc8sr_data :
    seen (step (msgWith .crc8sr 0xB3 [.word 0x0032])) = some ⟨.msg, .crc8sr, 0xDE, 0, []⟩ ∧
    seen (step (msgWith .crc8sr 0xDE [.word 0x8000])) = some ⟨.idle, .crc8sr, 0xDE, 0, [0x407B]⟩ := by decide +kernel

/-- Section 3.5: the command word of CRC8SR. -/
theorem test_crc8sr_command :
    seen (step { idleWith [.word 0x5000] with acc := 0x55 }) = some ⟨.msg, .crc8sr, 0x00, 0, []⟩ := by decide

/-- Section 3.7: CRC8T with a table, without one, and with a bad operand and none, which is `IllegalCommand`. -/
theorem test_crc8t_command :
    seen (step (builtWith [.word 0x4000])) = some ⟨.msg, .crc8t, 0x00, 0, []⟩ ∧
    seen (step (idleWith [.word 0x4000])) = some ⟨.fault, .crc8s, 0x00, 3, [0xC300]⟩ ∧
    seen (step (idleWith [.word 0x4001])) = some ⟨.fault, .crc8s, 0x00, 1, [0xC100]⟩ := by decide +kernel

/-- R103's example: `TBL_N[CD ^ 32] = 7B`. -/
theorem test_crc8t_lookup : accAfterByte 0x32 (msgWith .crc8t 0xCD []) = 0x7B := by decide +kernel

/-- Section 3.7: CRC8TR with a table, and with the normal table only. -/
theorem test_crc8tr_command :
    seen (step (builtWith [.word 0x7000])) = some ⟨.msg, .crc8tr, 0x00, 0, []⟩ ∧
    seen (step { builtWith [.word 0x7000] with tvR := false }) = some ⟨.fault, .crc8s, 0x00, 3, [0xC300]⟩ := by decide +kernel

/-- R128's example: `TBL_R[B3 ^ 4C] = DE`, returned reflected. -/
theorem test_crc8tr_data :
    accAfterByte 0x32 (msgWith .crc8tr 0xB3 []) = 0xDE ∧
    seen (step (msgWith .crc8tr 0xDE [.word 0x8000])) = some ⟨.idle, .crc8tr, 0xDE, 0, [0x407B]⟩ := by decide +kernel

/-- R101's example: the first four words and the last of `BLDT #0x9B`, 256 in all. -/
theorem test_bldt_words :
    (tableWords (tableN 0x9B)).take 4 = [0x0000, 0x009B, 0x00AD, 0x0036] ∧
    (tableWords (tableN 0x9B)).drop 254 = [0x00E0, 0x407B] ∧ (tableWords (tableN 0x9B)).length = 256 := by decide +kernel

/-- R101: BLDT emits those words and marks `TBL_N` valid. -/
theorem test_bldt (events : List HostEvent) :
    exec (.bldt 0x9B) (idleWith events) =
      .next { idleWith events with tblN := fillBank (tableN 0x9B) [], tvN := true, out := tableWords (tableN 0x9B) } :=
  (whenIdle_idle (s := idleWith events) rfl _).trans (congrArg Host.Outcome.next (buildBank_normal _ (idleWith events)))

/-- R126's example. -/
theorem test_bldtr_words :
    (tableWords (tableR 0xD9)).take 4 = [0x0000, 0x00D0, 0x0013, 0x00C3] ∧
    (tableWords (tableR 0xD9)).drop 254 = [0x000E, 0x40DE] ∧ (tableWords (tableR 0xD9)).length = 256 := by decide +kernel

/-- R126: BLDTR emits those words and marks `TBL_R` valid. -/
theorem test_bldtr (events : List HostEvent) :
    exec (.bldtr 0xD9) (idleWith events) =
      .next { idleWith events with tblR := fillBank (tableR 0xD9) [], tvR := true, out := tableWords (tableR 0xD9) } :=
  (whenIdle_idle (s := idleWith events) rfl _).trans (congrArg Host.Outcome.next (buildBank_reflected _ (idleWith events)))

/-! Faults, reset, the ports. -/

/-- Section 3.8, and P5: a command inside a message is an illegal data word; `ACC` and `OP` keep their values. -/
theorem test_illegal_data :
    seen (step (msgWith .crc8s 0xCD [.word 0x2000])) = some ⟨.fault, .crc8s, 0xCD, 2, [0xC200]⟩ := by decide +kernel

/-- U10: in `PHASE = FAULT` an offered word is not consumed. -/
theorem test_stuck : step (faultWith [.word 0x2000]) = .fault .stuckInFaultPhase := rfl

/-- R185: `RST` recovers; the report stays on `OUT`; the bank flags are cleared. -/
theorem test_reset :
    (nextState? (step (faultWith [.rst]))).map (fun t => (t.phase, t.cause, t.out)) = some (.idle, 0, [0xC100]) ∧
    (nextState? (step (builtWith [.rst]))).map (fun t => (t.tvN, t.tvR, t.tblN)) = some (false, false, []) := by decide +kernel

/-- R186: a reset inside the last step of a message, before and after its word has left. -/
theorem test_reset_inside :
    (nextState? (step (msgWith .crc8s 0x7B [.rstDuring 0x8000 0]))).map (fun t => (t.phase, t.out)) = some (.idle, []) ∧
    (nextState? (step (msgWith .crc8s 0x7B [.rstDuring 0x8000 1]))).map (fun t => (t.phase, t.out)) = some (.idle, [0x407B]) := by
  decide +kernel

/-- R178: the host takes the oldest word. -/
theorem test_take :
    (nextState? (step { idleWith [.take] with out := [0x4001, 0x4002] })).map (fun t => (t.out, t.taken)) =
      some ([0x4002], [0x4001]) := by decide

/-- R63, R72: reading result words. -/
theorem test_read_result :
    readResult 0x40D9 = .resultByte 0xD9 true ∧ readResult 0x009B = .resultByte 0x9B false ∧ readResult 0xC300 = .faulted 3 := by
  decide

/-- R71: `CRC8S 0x31, 0x32`, and `.ascii "12"`. -/
theorem test_assembler :
    (AsmLine.checksum .crc8s [0x31, 0x32]).events = [.word 0x2000, .word 0x0031, .word 0x0032, .word 0x8000] ∧
    (AsmLine.ascii [0x31, 0x32]).events = [.word 0x0031, .word 0x0032, .word 0x8000] := by decide

/-- R194: the three ends of a run; with a reset or a take next, a run in `PHASE = FAULT` goes on. -/
theorem test_run_end :
    runEnd (idleWith []) = some .endedWell ∧ runEnd (msgWith .crc8s 0x00 []) = some .incomplete ∧
    runEnd (faultWith [.word 0x2000]) = some .failed ∧ runEnd (faultWith []) = some .failed ∧
    runEnd (idleWith [.rst]) = none ∧ runEnd (faultWith [.rst]) = none ∧ runEnd (faultWith [.rstDuring 0x2000 0]) = none ∧
    runEnd (faultWith [.take]) = none := by
  decide +kernel

/-- Section 3.8: after `0x0000` the words `0x2000 0x8000` are never consumed and the run failed; with `RST` between them
and the words taken it ends well. -/
theorem test_run_recovers :
    RunEndsAs [.word 0x0000, .word 0x2000, .word 0x8000] .failed ∧
    RunEndsAs [.word 0x0000, .rst, .word 0x2000, .word 0x8000, .take, .take] .endedWell :=
  ⟨⟨1, _, rfl, rfl⟩, ⟨6, _, rfl, rfl⟩⟩

/-! Witnesses: concrete states and operands that meet the hypotheses of the obligation each is named after, one for each
clause, at the ends of the ranges. -/

theorem witness_DecodeEncodeRoundTrip :
    (Instr.bldtr 0xFF).wf = true ∧ decode 0x60FF = .ok (.bldtr 0xFF) ∧ decodeData 0x00FF = .ok (.byte 0xFF) ∧
    decodeData 0x8000 = .ok .endOfMessage := by decide

theorem witness_DecodeFollowsOpcodeMap :
    (⟨"CRC8TR", 0x7000, 0xFFFF⟩ : OpcodeRow) ∈ opcodeMap ∧ (⟨"CRC8TR", 0x7000, 0xFFFF⟩ : OpcodeRow).accepts 0x7000 = true ∧
    (⟨"REFLECT8", 0x1000, 0xFF00⟩ : OpcodeRow) ∈ opcodeMap ∧ (⟨"REFLECT8", 0x1000, 0xFF00⟩ : OpcodeRow).accepts 0x10FF = true ∧
    decode 0x10FF = .ok (.reflect8 0xFF) := by decide

theorem witness_LegalWordCounts : legalCommandWord 0x1000 = true ∧ legalCommandWord 0x7000 = true := by decide

/-- The bit indices at the ends of their ranges. -/
theorem witness_ShiftsTruncate :
    (shl1 0x01).getLsbD 1 = true ∧ (shl1 0x40).getLsbD 7 = true ∧ (shr1 0x02).getLsbD 0 = true ∧ (shr1 0x80).getLsbD 6 = true := by
  decide

theorem witness_ReflectorReversesBits : (reflect8 0x80).getLsbD 0 = true ∧ (reflect8 0x01).getLsbD 7 = true := by decide

theorem witness_RoundsBitByBit :
    (roundN 0x01 0x9B).getLsbD 1 = true ∧ (roundN 0x40 0x9B).getLsbD 7 = true ∧
    (roundR 0x02 0xD9).getLsbD 0 = true ∧ (roundR 0x80 0xD9).getLsbD 6 = true := by decide

theorem witness_ByteStepIsInvertible :
    (0x9B#8).getLsbD 0 = true ∧ byteN 0xFF 0x9B = byteN 0xFF 0x9B ∧ (0xD9#8).getLsbD 7 = true ∧
    byteR 0xFF 0xD9 = byteR 0xFF 0xD9 := by decide +kernel

/-- The instances of sections 3.3: `40 ^ 48 = 08`, a leading zero byte, a message with its own checksum. -/
theorem witness_ChecksumIsLinear :
    ([0x12, 0x34] : Message).length = ([0xAB, 0xCD] : Message).length ∧
    crc8SeqN [0x12, 0x34] = 0x40 ∧ crc8SeqN [0xAB, 0xCD] = 0x48 ∧ crc8SeqN [0xB9, 0xF9] = 0x08 ∧
    crc8SeqN [0x00, 0x31] = 0xCD ∧ crc8SeqN [0xDE, 0xAD, 0xBE, 0xEF, 0xD8] = 0x00 := by decide +kernel

theorem witness_StepRunsDecodedWord :
    ((idleWith [.word 0x2000]).input = .word 0x2000 :: [] ∧ (idleWith [.word 0x2000]).phase = .idle ∧ decode 0x2000 = .ok .crc8s) ∧
    ((idleWith [.word 0x8000]).input = .word 0x8000 :: [] ∧ decode 0x8000 = .error .unassignedOPC) ∧
    ((msgWith .crc8s 0x00 [.word 0x00FF]).phase = .msg ∧ (msgWith .crc8s 0x00 [.word 0x00FF]).input = .word 0x00FF :: [] ∧
      decodeData 0x00FF = .ok (.byte 0xFF)) ∧
    ((msgWith .crc8s 0x00 [.word 0x0100]).input = .word 0x0100 :: [] ∧ decodeData 0x0100 = .error .nonzeroDZ) := by decide

theorem witness_EveryWordIsConsumed :
    ((idleWith [.word 0x0000, .take]).input = .word 0x0000 :: [.take] ∧ (idleWith [.word 0x0000, .take]).phase ≠ .fault) ∧
    ((msgWith .crc8tr 0x00 [.word 0xFFFF]).input = .word 0xFFFF :: [] ∧ (msgWith .crc8tr 0x00 [.word 0xFFFF]).phase ≠ .fault) := by
  decide

theorem witness_WaitingKeepsAllState :
    ((idleWith []).input = [] ∧ (idleWith []).phase ≠ .fault) ∧
    ((msgWith .crc8t 0x00 []).input = [] ∧ (msgWith .crc8t 0x00 []).phase ≠ .fault) := by decide

theorem witness_TakingDrainsInOrder :
    (idleWith [.take]).input = .take :: [] ∧ (idleWith [.take]).out = [] ∧
    (faultWith [.take]).input = .take :: [] ∧ (faultWith [.take]).out = 0xC100 :: [] := by decide

theorem witness_IllegalCommandIsTaken :
    (idleWith [.word 0x8000]).phase = .idle ∧ (idleWith [.word 0x8000]).input = .word 0x8000 :: [] ∧ BadCommandFields 0x8000 ∧
    BadCommandFields 0x2001 ∧ BadCommandFields 0x11FF ∧ ¬ BadCommandFields 0x10FF ∧ ¬ BadCommandFields 0x7000 := by
  unfold BadCommandFields; decide

theorem witness_IllegalDataWordIsTaken :
    (msgWith .crc8s 0x00 [.word 0x0100]).phase = .msg ∧ (msgWith .crc8s 0x00 [.word 0x0100]).input = .word 0x0100 :: [] ∧
    BadDataFields 0x0100 ∧ BadDataFields 0x8001 ∧ ¬ BadDataFields 0x00FF ∧ ¬ BadDataFields 0x8000 := by
  unfold BadDataFields; decide

theorem witness_TableNotBuiltIsTaken :
    (idleWith [.word 0x4000]).phase = .idle ∧ (idleWith [.word 0x4000]).input = .word 0x4000 :: [] ∧
    (idleWith [.word 0x4000]).tvN = false ∧ (idleWith [.word 0x7000]).tvR = false ∧
    (idleWith [.word 0x7000]).input = .word 0x7000 :: [] := by decide

theorem witness_FaultEntryIsPrecise :
    (∃ t, step (idleWith [.word 0x0000, .word 0x2000]) = .next t ∧ t.phase = .fault ∧ t.input = .word 0x2000 :: []) ∧
    (∃ t, step (msgWith .crc8s 0x00 [.word 0x8001]) = .next t ∧ t.phase = .fault) ∧
    (∃ t, step (idleWith [.word 0x7000]) = .next t ∧ t.phase = .fault) :=
  ⟨⟨_, rfl, rfl, rfl⟩, ⟨_, rfl, rfl⟩, ⟨_, rfl, rfl⟩⟩

theorem witness_OnlyResetLeavesFault :
    (faultWith []).phase = .fault ∧ (faultWith [.word 0x2000]).input = .word 0x2000 :: [] ∧ (faultWith []).input = [] ∧
    (∃ t, step (faultWith [.rst]) = .next t) ∧ (∃ t, step (faultWith [.rstDuring 0x2000 1]) = .next t) ∧
    (∃ t, step (faultWith [.take]) = .next t) :=
  ⟨rfl, rfl, rfl, ⟨_, rfl⟩, ⟨_, rfl⟩, ⟨_, rfl⟩⟩

theorem witness_ResetFromAnyPhase :
    (idleWith [.rst]).input = .rst :: [] ∧ (msgWith .crc8t 0xFF [.rst]).input = .rst :: [] ∧
    (faultWith [.rst, .word 0x2000]).input = .rst :: [.word 0x2000] := by decide

theorem witness_ResetInsideAStep :
    ∃ u, (msgWith .crc8s 0x7B []).phase ≠ .fault ∧
      step { msgWith .crc8s 0x7B [] with input := .word 0x8000 :: [] } = .next u ∧
      u.out = (msgWith .crc8s 0x7B []).out ++ [0x407B] :=
  ⟨_, by decide, rfl, by decide⟩

theorem witness_CommandInsideMessageIsCaught :
    (msgWith .crc8t 0x00 [.word 0x2000]).phase = .msg ∧ (msgWith .crc8t 0x00 [.word 0x2000]).input = .word (encode .crc8s) :: [] := by
  decide

theorem witness_Crc8sFollowsItsRule :
    ((idleWith [.word 0x2000]).phase = .idle ∧ (idleWith [.word 0x2000]).input = .word 0x2000 :: []) ∧
    ((idleWith [.word 0x2000]).phase = .idle ∧ (idleWith [.word 0x2000]).input = .word 0x2000 :: []) ∧
    ((msgWith .crc8s 0xFF [.word 0x00FF]).phase = .msg ∧ (msgWith .crc8s 0xFF [.word 0x00FF]).op = .crc8s ∧
      (msgWith .crc8s 0xFF [.word 0x00FF]).input = .word (0x0000#16 ||| (0xFF#8).setWidth 16) :: []) ∧
    ((msgWith .crc8s 0xFF [.word 0x8000]).phase = .msg ∧ (msgWith .crc8s 0xFF [.word 0x8000]).op = .crc8s ∧
      (msgWith .crc8s 0xFF [.word 0x8000]).input = .word 0x8000 :: []) ∧
    (fieldOPC 0x2001 = 2 ∧ (fieldCZ 0x2001 ≠ 0 ∨ fieldIMM8 0x2001 ≠ 0) ∧ (idleWith [.word 0x2001]).input = .word 0x2001 :: []) ∧
    (BadDataFields 0x0100 ∧ (msgWith .crc8s 0xFF [.word 0x0100]).input = .word 0x0100 :: []) ∧
    ((msgWith .crc8s 0xFF [.word 0x2000]).phase ≠ .idle ∧ (msgWith .crc8s 0xFF [.word 0x2000]).input = .word 0x2000 :: []) ∧
    ((faultWith [.word 0x2000]).phase ≠ .idle ∧ (faultWith [.word 0x2000]).input = .word 0x2000 :: []) := by
  unfold BadDataFields; decide

theorem witness_Crc8tFollowsItsRule :
    ((builtWith [.word 0x4000]).phase = .idle ∧ (builtWith [.word 0x4000]).input = .word 0x4000 :: [] ∧ (builtWith [.word 0x4000]).tvN = true) ∧
    ((idleWith [.word 0x4000]).phase = .idle ∧ (idleWith [.word 0x4000]).input = .word 0x4000 :: []) ∧
    ((msgWith .crc8t 0xFF [.word 0x00FF]).phase = .msg ∧ (msgWith .crc8t 0xFF [.word 0x00FF]).op = .crc8t ∧
      (msgWith .crc8t 0xFF [.word 0x00FF]).input = .word (0x0000#16 ||| (0xFF#8).setWidth 16) :: []) ∧
    ((msgWith .crc8t 0xFF [.word 0x8000]).phase = .msg ∧ (msgWith .crc8t 0xFF [.word 0x8000]).op = .crc8t ∧
      (msgWith .crc8t 0xFF [.word 0x8000]).input = .word 0x8000 :: []) ∧
    (fieldOPC 0x4100 = 4 ∧ (fieldCZ 0x4100 ≠ 0 ∨ fieldIMM8 0x4100 ≠ 0) ∧ (idleWith [.word 0x4100]).input = .word 0x4100 :: []) ∧
    (BadDataFields 0x0100 ∧ (msgWith .crc8t 0xFF [.word 0x0100]).input = .word 0x0100 :: []) ∧
    ((msgWith .crc8t 0xFF [.word 0x4000]).phase ≠ .idle ∧ (msgWith .crc8t 0xFF [.word 0x4000]).input = .word 0x4000 :: []) ∧
    ((faultWith [.word 0x4000]).phase ≠ .idle ∧ (faultWith [.word 0x4000]).input = .word 0x4000 :: []) := by
  unfold BadDataFields; decide

theorem witness_Crc8srFollowsItsRule :
    ((idleWith [.word 0x5000]).phase = .idle ∧ (idleWith [.word 0x5000]).input = .word 0x5000 :: []) ∧
    ((idleWith [.word 0x5000]).phase = .idle ∧ (idleWith [.word 0x5000]).input = .word 0x5000 :: []) ∧
    ((msgWith .crc8sr 0xFF [.word 0x00FF]).phase = .msg ∧ (msgWith .crc8sr 0xFF [.word 0x00FF]).op = .crc8sr ∧
      (msgWith .crc8sr 0xFF [.word 0x00FF]).input = .word (0x0000#16 ||| (0xFF#8).setWidth 16) :: []) ∧
    ((msgWith .crc8sr 0xFF [.word 0x8000]).phase = .msg ∧ (msgWith .crc8sr 0xFF [.word 0x8000]).op = .crc8sr ∧
      (msgWith .crc8sr 0xFF [.word 0x8000]).input = .word 0x8000 :: []) ∧
    (fieldOPC 0x50FF = 5 ∧ (fieldCZ 0x50FF ≠ 0 ∨ fieldIMM8 0x50FF ≠ 0) ∧ (idleWith [.word 0x50FF]).input = .word 0x50FF :: []) ∧
    (BadDataFields 0x0100 ∧ (msgWith .crc8sr 0xFF [.word 0x0100]).input = .word 0x0100 :: []) ∧
    ((msgWith .crc8sr 0xFF [.word 0x5000]).phase ≠ .idle ∧ (msgWith .crc8sr 0xFF [.word 0x5000]).input = .word 0x5000 :: []) ∧
    ((faultWith [.word 0x5000]).phase ≠ .idle ∧ (faultWith [.word 0x5000]).input = .word 0x5000 :: []) := by
  unfold BadDataFields; decide

theorem witness_Crc8trFollowsItsRule :
    ((builtWith [.word 0x7000]).phase = .idle ∧ (builtWith [.word 0x7000]).input = .word 0x7000 :: [] ∧ (builtWith [.word 0x7000]).tvR = true) ∧
    ((idleWith [.word 0x7000]).phase = .idle ∧ (idleWith [.word 0x7000]).input = .word 0x7000 :: []) ∧
    ((msgWith .crc8tr 0xFF [.word 0x00FF]).phase = .msg ∧ (msgWith .crc8tr 0xFF [.word 0x00FF]).op = .crc8tr ∧
      (msgWith .crc8tr 0xFF [.word 0x00FF]).input = .word (0x0000#16 ||| (0xFF#8).setWidth 16) :: []) ∧
    ((msgWith .crc8tr 0xFF [.word 0x8000]).phase = .msg ∧ (msgWith .crc8tr 0xFF [.word 0x8000]).op = .crc8tr ∧
      (msgWith .crc8tr 0xFF [.word 0x8000]).input = .word 0x8000 :: []) ∧
    (fieldOPC 0x7F01 = 7 ∧ (fieldCZ 0x7F01 ≠ 0 ∨ fieldIMM8 0x7F01 ≠ 0) ∧ (idleWith [.word 0x7F01]).input = .word 0x7F01 :: []) ∧
    (BadDataFields 0x0100 ∧ (msgWith .crc8tr 0xFF [.word 0x0100]).input = .word 0x0100 :: []) ∧
    ((msgWith .crc8tr 0xFF [.word 0x7000]).phase ≠ .idle ∧ (msgWith .crc8tr 0xFF [.word 0x7000]).input = .word 0x7000 :: []) ∧
    ((faultWith [.word 0x7000]).phase ≠ .idle ∧ (faultWith [.word 0x7000]).input = .word 0x7000 :: []) := by
  unfold BadDataFields; decide

theorem witness_Reflect8FollowsItsRule :
    ((idleWith [.word 0x10FF]).phase = .idle ∧
      (idleWith [.word 0x10FF]).input = .word (0x1000#16 ||| (0xFF#8).setWidth 16) :: []) ∧
    (fieldOPC 0x11FF = 1 ∧ fieldCZ 0x11FF ≠ 0 ∧ (idleWith [.word 0x11FF]).input = .word 0x11FF :: []) ∧
    ((msgWith .crc8s 0x00 [.word 0x10FF]).phase ≠ .idle ∧
      (msgWith .crc8s 0x00 [.word 0x10FF]).input = .word (0x1000#16 ||| (0xFF#8).setWidth 16) :: []) ∧
    ((faultWith [.word 0x10FF]).phase ≠ .idle ∧
      (faultWith [.word 0x10FF]).input = .word (0x1000#16 ||| (0xFF#8).setWidth 16) :: []) := by
  decide

theorem witness_BldtFollowsItsRule :
    ((idleWith [.word 0x30FF]).phase = .idle ∧
      (idleWith [.word 0x30FF]).input = .word (0x3000#16 ||| (0xFF#8).setWidth 16) :: []) ∧
    (fieldOPC 0x3F9B = 3 ∧ fieldCZ 0x3F9B ≠ 0 ∧ (idleWith [.word 0x3F9B]).input = .word 0x3F9B :: []) ∧
    ((msgWith .crc8s 0x00 [.word 0x30FF]).phase ≠ .idle ∧
      (msgWith .crc8s 0x00 [.word 0x30FF]).input = .word (0x3000#16 ||| (0xFF#8).setWidth 16) :: []) ∧
    ((faultWith [.word 0x30FF]).phase ≠ .idle ∧
      (faultWith [.word 0x30FF]).input = .word (0x3000#16 ||| (0xFF#8).setWidth 16) :: []) := by
  decide

theorem witness_BldtrFollowsItsRule :
    ((idleWith [.word 0x60FF]).phase = .idle ∧
      (idleWith [.word 0x60FF]).input = .word (0x6000#16 ||| (0xFF#8).setWidth 16) :: []) ∧
    (fieldOPC 0x6200 = 6 ∧ fieldCZ 0x6200 ≠ 0 ∧ (idleWith [.word 0x6200]).input = .word 0x6200 :: []) ∧
    ((msgWith .crc8s 0x00 [.word 0x60FF]).phase ≠ .idle ∧
      (msgWith .crc8s 0x00 [.word 0x60FF]).input = .word (0x6000#16 ||| (0xFF#8).setWidth 16) :: []) ∧
    ((faultWith [.word 0x60FF]).phase ≠ .idle ∧
      (faultWith [.word 0x60FF]).input = .word (0x6000#16 ||| (0xFF#8).setWidth 16) :: []) := by
  decide

theorem witness_FrameOfReflectAndChecksumCommands :
    (∃ t, exec (.reflect8 0xFF) (idleWith []) = .next t ∧ t.phase ≠ .fault) ∧
    (∃ t, exec .crc8s (idleWith []) = .next t ∧ t.phase ≠ .fault) ∧ (∃ t, exec .crc8sr (idleWith []) = .next t ∧ t.phase ≠ .fault) ∧
    (∃ t, exec .crc8t (builtWith []) = .next t ∧ t.phase ≠ .fault) ∧ (∃ t, exec .crc8tr (builtWith []) = .next t ∧ t.phase ≠ .fault) ∧
    (∃ t, exec .crc8t (idleWith []) = .next t ∧ t.phase = .fault) ∧ (∃ t, exec .crc8tr (idleWith []) = .next t ∧ t.phase = .fault) :=
  ⟨⟨_, rfl, by decide⟩, ⟨_, rfl, by decide⟩, ⟨_, rfl, by decide⟩, ⟨_, rfl, by decide⟩, ⟨_, rfl, by decide⟩, ⟨_, rfl, rfl⟩,
    ⟨_, rfl, rfl⟩⟩

theorem witness_FrameOfBuilds :
    (∃ t, exec (.bldt 0x9B) (idleWith []) = .next t ∧ t.phase ≠ .fault) ∧
    (∃ t, exec (.bldtr 0xD9) (idleWith []) = .next t ∧ t.phase ≠ .fault) ∧
    (∃ t, exec (.bldt 0x9B) (msgWith .crc8s 0x00 []) = .next t ∧ t.phase = .fault) ∧
    (∃ t, exec (.bldtr 0xD9) (msgWith .crc8s 0x00 []) = .next t ∧ t.phase = .fault) :=
  ⟨⟨_, test_bldt [], by decide⟩, ⟨_, test_bldtr [], by decide⟩, ⟨_, rfl, rfl⟩, ⟨_, rfl, rfl⟩⟩

theorem witness_BanksChangeOnlyByBuildOrReset :
    (∃ t, step (idleWith [.word 0x309B]) = .next t ∧ t.tvN ≠ (idleWith [.word 0x309B]).tvN) ∧
    (∃ t, step (idleWith [.word 0x60D9]) = .next t ∧ t.tvR ≠ (idleWith [.word 0x60D9]).tvR) ∧
    (∃ t, step (builtWith [.rst]) = .next t ∧ t.tvN ≠ (builtWith [.rst]).tvN ∧ t.tvR ≠ (builtWith [.rst]).tvR) :=
  ⟨⟨_, test_bldt [], by decide⟩, ⟨_, test_bldtr [], by decide⟩, ⟨_, rfl, by decide, by decide⟩⟩

theorem witness_AccumulatorAndOpWriters :
    (∃ t, step (msgWith .crc8s 0x00 [.word 0x0001]) = .next t ∧ t.acc ≠ (msgWith .crc8s 0x00 [.word 0x0001]).acc) ∧
    (∃ t, step { idleWith [.word 0x5000] with acc := 0x55 } = .next t ∧ t.acc ≠ 0x55 ∧ t.op ≠ .crc8s) :=
  ⟨⟨_, rfl, by decide +kernel⟩, ⟨_, rfl, by decide, by decide⟩⟩

theorem witness_PhaseMovesOnlyAsRuled :
    (∃ t, step (idleWith [.word 0x2000]) = .next t ∧ t.phase = .msg) ∧ (∃ t, step (idleWith [.word 0x10FF]) = .next t ∧ t.phase = .idle) ∧
    (∃ t, step (msgWith .crc8t 0x00 [.word 0x8000]) = .next t ∧ t.phase = .idle) ∧
    (∃ t, step (msgWith .crc8t 0x00 [.word 0x00FF]) = .next t ∧ t.phase = .msg) :=
  ⟨⟨_, rfl, rfl⟩, ⟨_, rfl, rfl⟩, ⟨_, rfl, rfl⟩, ⟨_, rfl, rfl⟩⟩

theorem witness_OtherBankIsNeverRead : (msgWith .crc8t 0x00 []).op ≠ .crc8tr ∧ (msgWith .crc8tr 0x00 []).op ≠ .crc8t := by decide

theorem witness_OutGrowsByResultWords :
    (∃ t, step (idleWith [.word 0x1001]) = .next t ∧ outSequence t = outSequence (idleWith []) ++ [0x4080]) ∧
    (∃ t, step (idleWith [.word 0x309B]) = .next t) ∧ (∃ t, step (faultWith [.take]) = .next t) :=
  ⟨⟨_, rfl, by decide⟩, ⟨_, test_bldt []⟩, ⟨_, rfl⟩⟩

theorem witness_CanonicalBanksAreDetermined :
    Memory.wf [(0, 0x00), (255, 0x7B)] = true ∧
    (∀ a, Memory.read [(0, 0x00), (255, 0x7B)] a = Memory.read [(0, 0x00), (255, 0x7B)] a) := ⟨by decide, fun _ => rfl⟩

theorem witness_Crc8sRunComputesChecksum :
    (idleWith (.word 0x2000 :: messageEvents digits)).phase = .idle ∧
    (idleWith (.word 0x2000 :: messageEvents digits)).input = .word 0x2000 :: (messageEvents digits ++ []) ∧ 9 ≤ digits.length := by
  decide

theorem witness_NormalTableRunComputesChecksum :
    ((idleWith [.word 0x309B]).phase = .idle ∧ (idleWith [.word 0x309B]).input = .word (0x3000#16 ||| (0x9B#8).setWidth 16) :: []) ∧
    ((builtWith (.word 0x4000 :: messageEvents digits)).phase = .idle ∧ (builtWith (.word 0x4000 :: messageEvents digits)).tvN = true ∧
      (builtWith (.word 0x4000 :: messageEvents digits)).input = .word 0x4000 :: (messageEvents digits ++ []) ∧ 9 ≤ digits.length) ∧
    ((idleWith [.word 0x4000]).tvN = false ∧ (idleWith [.word 0x4000]).input = .word 0x4000 :: []) := by decide

theorem witness_Crc8srRunComputesChecksum :
    (idleWith (.word 0x5000 :: messageEvents [])).phase = .idle ∧
    (idleWith (.word 0x5000 :: messageEvents [])).input = .word 0x5000 :: (messageEvents [] ++ []) ∧ 0 ≤ ([] : Message).length := by
  decide

theorem witness_ReflectedTableRunComputesChecksum :
    ((idleWith [.word 0x60D9]).phase = .idle ∧ (idleWith [.word 0x60D9]).input = .word (0x6000#16 ||| (0xD9#8).setWidth 16) :: []) ∧
    ((builtWith (.word 0x7000 :: messageEvents digits)).phase = .idle ∧ (builtWith (.word 0x7000 :: messageEvents digits)).tvR = true ∧
      (builtWith (.word 0x7000 :: messageEvents digits)).input = .word 0x7000 :: (messageEvents digits ++ [])) ∧
    ((idleWith [.word 0x7000]).tvR = false ∧ (idleWith [.word 0x7000]).input = .word 0x7000 :: []) := by decide

/-- The two builds a host does first. -/
def bootBuilds : List Operation := [.build .reflected 0xD9, .build .normal 0x9B]

/-- No build is held by the reset state. -/
theorem holdsBuilds_idleWith (events : List HostEvent) : HoldsBuilds ⟨none, none⟩ (idleWith events) :=
  ⟨fun _ h => (by cases h), fun _ h => by cases h⟩

/-- Both builds are held by the built state. -/
theorem holdsBuilds_builtWith (events : List HostEvent) : HoldsBuilds ⟨some 0x9B, some 0xD9⟩ (builtWith events) :=
  ⟨fun q h => by cases h; exact ⟨rfl, fun i => bankRead_normal_filled _ (m := []) rfl i⟩,
    fun q h => by cases h; exact ⟨rfl, fun i => bankRead_reflected_filled _ (m := []) rfl i⟩⟩

theorem witness_FourEnginesAgree :
    (idleWith (sessionEvents bootBuilds ++ (checksumEvents .crc8tr [0xFF] ++ []))).phase = .idle ∧
    HoldsBuilds ⟨none, none⟩ (idleWith (sessionEvents bootBuilds ++ (checksumEvents .crc8tr [0xFF] ++ []))) ∧
    (∃ rs, sessionResults bootBuilds ⟨none, none⟩ = some rs) ∧
    (sessionBuilds bootBuilds ⟨none, none⟩).normal = some Config.POLY ∧
    (sessionBuilds bootBuilds ⟨none, none⟩).reflected = some Config.RPOLY :=
  ⟨rfl, holdsBuilds_idleWith _, ⟨_, rfl⟩, rfl, rfl⟩

theorem witness_ReflectingTwiceReturnsTheByte : (idleWith []).phase = .idle := rfl

theorem witness_EmptyMessageGivesZero :
    ((builtWith [.word 0x7000, .word 0x8000]).phase = .idle ∧
      (builtWith [.word 0x7000, .word 0x8000]).input = .word (encode (checksumCommand .crc8tr)) :: .word 0x8000 :: [] ∧
      tableReady .crc8tr (builtWith [.word 0x7000, .word 0x8000]) = true) ∧
    ((idleWith [.word 0x4000, .word 0x8000]).input = .word (encode (checksumCommand .crc8t)) :: .word 0x8000 :: [] ∧
      tableReady .crc8t (idleWith [.word 0x4000, .word 0x8000]) = false) := by decide

theorem witness_BuildingTwiceIsTheSame : (idleWith []).phase = .idle ∧ (builtWith []).phase = .idle := by decide

theorem witness_SessionsReturnFunctionResults :
    (builtWith (sessionEvents [.checksum .crc8t digits, .reflect 0x9B] ++ [])).phase = .idle ∧
    HoldsBuilds ⟨some 0x9B, some 0xD9⟩ (builtWith (sessionEvents [.checksum .crc8t digits, .reflect 0x9B] ++ [])) ∧
    (∃ rs, sessionResults [.checksum .crc8t digits, .reflect 0x9B] ⟨some 0x9B, some 0xD9⟩ = some rs) :=
  ⟨rfl, holdsBuilds_builtWith _, ⟨_, rfl⟩⟩

theorem witness_ResultsAreCutAtLast :
    (∃ rs, sessionResults bootBuilds ⟨none, none⟩ = some rs) ∧ (∃ rs, sessionResults [] ⟨none, none⟩ = some rs) :=
  ⟨⟨_, rfl⟩, ⟨_, rfl⟩⟩

/-- In the middle of a CRC8T message, with both banks built, the invariant holds and the block takes a step. -/
theorem witness_EveryStepKeepsInvariant :
    MachineInv (msgWith .crc8t 0xCD [.word 0x0032]) ∧ ∃ t, step (msgWith .crc8t 0xCD [.word 0x0032]) = .next t := by
  have hN : ∀ i, bankRead .normal (msgWith .crc8t 0xCD [.word 0x0032]) i = tableN 0x9B i :=
    fun i => bankRead_normal_filled _ (m := []) rfl i
  have hR : ∀ i, bankRead .reflected (msgWith .crc8t 0xCD [.word 0x0032]) i = tableR 0xD9 i :=
    fun i => bankRead_reflected_filled _ (m := []) rfl i
  refine ⟨⟨⟨⟨fun _ => ⟨_, hN⟩, fun _ => ⟨_, hR⟩⟩, ⟨fun _ => rfl, fun _ => rfl⟩, by unfold CauseMatchesPhase; decide,
    ⟨fun _ => (hN 0).trans (by decide +kernel), fun _ => (hR 0).trans (by decide +kernel)⟩⟩,
    ⟨wf_fillBank _ Memory.wf_nil, wf_fillBank _ Memory.wf_nil⟩, ⟨fun h => (by cases h), fun h => by cases h⟩,
    by unfold CauseIsProduced; decide⟩, _, rfl⟩

theorem witness_ReachableStatesMeetR34 :
    (∃ t, runSteps 1 { State.reset with input := [.word 0x309B] } = .next t ∧ t.tvN = true) ∧
    (∃ t, runSteps 1 { State.reset with input := [.word 0x60D9] } = .next t ∧ t.tvR = true) :=
  ⟨⟨_, (runSteps_of_step (show step (idleWith [.word 0x309B]) = _ from test_bldt []) 0).trans rfl, rfl⟩, ⟨_, (runSteps_of_step (show step (idleWith [.word 0x60D9]) = _ from test_bldtr []) 0).trans rfl, rfl⟩⟩

/-- Two idle states that differ in everything the spec leaves unspecified, and two stuck ones. -/
theorem witness_UnspecifiedStateIsUnobservable :
    (EngineHasTable (idleWith [.word 0x2000]) ∧
      Alike (idleWith [.word 0x2000]) { idleWith [.word 0x2000] with acc := 0xFF, op := .crc8tr, tblN := [(0, 0x01)], resets := 5 } ∧
      ∃ t, step (idleWith [.word 0x2000]) = .next t) ∧
    (EngineHasTable (faultWith []) ∧ Alike (faultWith []) { faultWith [] with acc := 0xFF } ∧
      step (faultWith []) = .fault .stuckInFaultPhase) := by
  refine ⟨⟨by unfold EngineHasTable; decide, ?_, _, rfl⟩, by unfold EngineHasTable; decide, ?_, rfl⟩
  · exact ⟨rfl, rfl, rfl, rfl, rfl, rfl, rfl, fun h => (by cases h), fun h => (by cases h), fun h => (by cases h), fun h => by cases h⟩
  · exact ⟨rfl, rfl, rfl, rfl, rfl, rfl, rfl, fun h => (by cases h), fun h => (by cases h), fun h => (by cases h), fun h => by cases h⟩

end Sys2Proof.Tests
end

section
/-! PROOFS. The two shifts (O6), and the words a session of operations returns (O53). -/

namespace Sys2Proof.Machine

/-! The two shifts (R13, R14), bit by bit and as numbers. -/

theorem getLsbD_shl1_zero (a : Byte) : (shl1 a).getLsbD 0 = false := by
  simp [shl1]

theorem getLsbD_shl1_of_pos (a : Byte) {i : Nat} (h1 : 1 ≤ i) (h7 : i ≤ 7) :
    (shl1 a).getLsbD i = a.getLsbD (i - 1) := by
  rw [shl1, BitVec.getLsbD_shiftLeft]
  simp [show i < 8 by omega, show i ≠ 0 by omega]

theorem toNat_shl1 (a : Byte) : (shl1 a).toNat = 2 * a.toNat % 256 := by
  rw [shl1, BitVec.toNat_shiftLeft, Nat.shiftLeft_eq, Nat.pow_one, Nat.mul_comm]

/-- At `i = 7` this reads the bit above the byte, which is 0. -/
theorem getLsbD_shr1 (a : Byte) (i : Nat) : (shr1 a).getLsbD i = a.getLsbD (i + 1) := by
  rw [shr1, BitVec.getLsbD_ushiftRight, Nat.add_comm]

theorem toNat_shr1 (a : Byte) : (shr1 a).toNat = a.toNat / 2 := by
  rw [shr1, BitVec.toNat_ushiftRight, Nat.shiftRight_one]

/-- Settles O6: each clause is the law of that shift. -/
theorem shiftsTruncate : Obligations.ShiftsTruncate := fun a =>
  ⟨getLsbD_shl1_zero a, fun _ => getLsbD_shl1_of_pos a, toNat_shl1 a,
    (getLsbD_shr1 a 7).trans (BitVec.getLsbD_of_ge a 8 (by decide)), fun i _ => getLsbD_shr1 a i, toNat_shr1 a⟩

/-! Decoding what the host encodes (R61, R62, R65). -/

@[simp] theorem decode_encode (i : Instr) : decode (encode i) = .ok i := by
  cases i <;> simp [encode, decode, withOperand, withoutOperand]

@[simp] theorem decodeData_encodeData (d : DataWord) : decodeData (encodeData d) = .ok d := by
  cases d with
  | byte b => simp [decodeData]
  | endOfMessage => decide

/-! One step on a word the host encodes. -/

theorem step_of_offer {s : State} {i : Instr} {rest : List HostEvent} (hp : s.phase = .idle)
    (hi : s.input = offer i :: rest) : step s = exec i { s with input := rest } := by
  rw [step_of_word hi, consumeWord_idle (s := { s with input := rest }) hp, commandStep_ok (decode_encode i)]

theorem step_of_dataWord {s : State} {d : DataWord} {rest : List HostEvent} (hp : s.phase = .msg)
    (hi : s.input = .word (encodeData d) :: rest) : step s = .next (execData d { s with input := rest }) := by
  rw [step_of_word hi, consumeWord_msg (s := { s with input := rest }) hp, dataStep_ok (decodeData_encodeData d)]

@[simp] theorem exec_checksumCommand (op : ChecksumOp) (s : State) : exec (checksumCommand op) s = beginChecksum op s := by
  cases op <;> rfl

theorem exec_reflect8_idle {s : State} (hp : s.phase = .idle) (v : Byte) :
    exec (.reflect8 v) s = .next { s with out := s.out ++ [lastWord (reflect8 v)] } :=
  whenIdle_idle hp _

theorem exec_bldt_idle {s : State} (hp : s.phase = .idle) (q : Byte) :
    exec (.bldt q) s = .next { s with
      tblN := fillBank (tableN q) s.tblN, tvN := true, out := s.out ++ tableWords (tableN q) } :=
  (whenIdle_idle hp _).trans (congrArg _ (buildBank_normal _ s))

theorem exec_bldtr_idle {s : State} (hp : s.phase = .idle) (q : Byte) :
    exec (.bldtr q) s = .next { s with
      tblR := fillBank (tableR q) s.tblR, tvR := true, out := s.out ++ tableWords (tableR q) } :=
  (whenIdle_idle hp _).trans (congrArg _ (buildBank_reflected _ s))

theorem runSteps_one {s t : State} (h : step s = .next t) : runSteps 1 s = .next t := by
  rw [runSteps_of_step h, runSteps_zero]

theorem runSteps_offer {s t : State} {i : Instr} {rest : List HostEvent} (hp : s.phase = .idle)
    (hi : s.input = offer i :: rest) (he : exec i { s with input := rest } = .next t) : runSteps 1 s = .next t :=
  runSteps_one ((step_of_offer hp hi).trans he)

/-! A whole message, for all four engines at once (R95, R104, R119, R129). -/

/-- `ACC` after the bytes of `M`, by the byte step of the engine at work in `s`. -/
def accAfterMessage (M : Message) (s : State) : Byte := M.foldl (fun a b => accAfterByte b { s with acc := a }) s.acc

/-- The byte the engine `op` returns for `M`, with the banks as they are in `s`. -/
def engineResult : ChecksumOp → Message → State → Byte
  | .crc8s, M, _ => crc8SeqN M
  | .crc8t, M, s => crc8Tbl M (bankRead .normal s)
  | .crc8sr, M, _ => crc8SeqR M
  | .crc8tr, M, s => crc8TblR M (bankRead .reflected s)

theorem accAfterMessage_cons (b : Byte) (M : Message) (s : State) :
    accAfterMessage (b :: M) s = accAfterMessage M (byteStep b s) := rfl

/-- The loop invariant of every engine: the accumulator after a message, reflected where the engine is, is its result. -/
theorem checksumResult_accAfterMessage (op : ChecksumOp) (M : Message) (s : State) :
    checksumResult op { s with acc := accAfterMessage M (startMessage op s) } = engineResult op M s := by
  cases op <;> rfl

/-- The byte words of a message change `ACC` only. -/
theorem runSteps_messageBytes (M : Message) {s : State} {rest : List HostEvent} (hp : s.phase = .msg)
    (hi : s.input = M.map (fun b => .word (encodeData (.byte b))) ++ rest) :
    runSteps M.length s = .next { s with input := rest, acc := accAfterMessage M s } := by
  induction M generalizing s with
  | nil =>
    cases hi
    rfl
  | cons b M ih =>
    rw [List.length_cons, runSteps_of_step (step_of_dataWord hp hi), accAfterMessage_cons]
    exact ih hp rfl

/-- A checksum operation over a whole message, from any state in `IDLE` whose table is built. -/
theorem runSteps_checksumEvents {op : ChecksumOp} {M : Message} {s : State} {rest : List HostEvent} (hp : s.phase = .idle)
    (hr : tableReady op s = true) (hi : s.input = checksumEvents op M ++ rest) :
    runSteps (checksumEvents op M).length s = .next { s with
      input := rest, acc := accAfterMessage M (startMessage op s), op := op
      out := s.out ++ [lastWord (engineResult op M s)] } := by
  have hstart : step s = .next (startMessage op { s with input := messageEvents M ++ rest }) := by
    rw [step_of_offer hp hi, exec_checksumCommand]
    exact beginChecksum_ready hp hr
  have hbytes := runSteps_messageBytes M (s := startMessage op { s with input := messageEvents M ++ rest })
    (rest := .word (encodeData .endOfMessage) :: rest) rfl (by simp [messageEvents])
  have hend := runSteps_one (step_of_dataWord (d := .endOfMessage) (rest := rest)
    (s := { startMessage op s with
      input := .word (encodeData .endOfMessage) :: rest, acc := accAfterMessage M (startMessage op s) }) rfl rfl)
  have hlen : (checksumEvents op M).length = M.length + 1 + 1 := by simp [checksumEvents, messageEvents]
  rw [hlen, runSteps_of_step hstart, runSteps_trans hbytes hend, ← checksumResult_accAfterMessage]
  simp only [execData, endMessage, emit, emitAll, startMessage, hp]
  rfl

/-! What the banks hold (R24, R34). -/

/-- A bank that holds a build reads as that table, so its engine computes the function of it. -/
theorem HoldsBuilds.normal_read {p : Builds} {s : State} {q : Byte} (h : HoldsBuilds p s) (hq : p.normal = some q) :
    s.tvN = true ∧ bankRead .normal s = tableN q :=
  (h.1 q hq).imp_right funext

theorem HoldsBuilds.reflected_read {p : Builds} {s : State} {q : Byte} (h : HoldsBuilds p s) (hq : p.reflected = some q) :
    s.tvR = true ∧ bankRead .reflected s = tableR q :=
  (h.2 q hq).imp_right funext

/-- What the builds left depends on the two banks, their flags and the count of resets alone. -/
theorem HoldsBuilds.congr {p : Builds} {s t : State} (h : HoldsBuilds p s) (hN : t.tblN = s.tblN) (hR : t.tblR = s.tblR)
    (hvN : t.tvN = s.tvN) (hvR : t.tvR = s.tvR) (hr : t.resets = s.resets) : HoldsBuilds p t :=
  ⟨fun q hq => ⟨hvN.trans (h.1 q hq).1, fun i => (bankRead_normal_congr s t hN hr i).trans ((h.1 q hq).2 i)⟩,
    fun q hq => ⟨hvR.trans (h.2 q hq).1, fun i => (bankRead_reflected_congr s t hR hr i).trans ((h.2 q hq).2 i)⟩⟩

/-- A build of `TBL_N` adds to what the banks hold. -/
theorem HoldsBuilds.fill_normal {p : Builds} {s t : State} {q : Byte} {m : Memory} (h : HoldsBuilds p s)
    (hN : t.tblN = fillBank (tableN q) m) (hR : t.tblR = s.tblR) (hvN : t.tvN = true) (hvR : t.tvR = s.tvR)
    (hr : t.resets = s.resets) : HoldsBuilds { p with normal := some q } t := by
  refine ⟨fun q' hq' => ?_, fun q' hq' => ?_⟩
  · cases hq'
    exact ⟨hvN, bankRead_normal_filled t hN⟩
  · obtain ⟨hv, hread⟩ := h.2 q' hq'
    exact ⟨hvR.trans hv, fun i => (bankRead_reflected_congr s t hR hr i).trans (hread i)⟩

/-- A build of `TBL_R` adds to what the banks hold. -/
theorem HoldsBuilds.fill_reflected {p : Builds} {s t : State} {q : Byte} {m : Memory} (h : HoldsBuilds p s)
    (hN : t.tblN = s.tblN) (hR : t.tblR = fillBank (tableR q) m) (hvN : t.tvN = s.tvN) (hvR : t.tvR = true)
    (hr : t.resets = s.resets) : HoldsBuilds { p with reflected := some q } t := by
  refine ⟨fun q' hq' => ?_, fun q' hq' => ?_⟩
  · obtain ⟨hv, hread⟩ := h.1 q' hq'
    exact ⟨hvN.trans hv, fun i => (bankRead_normal_congr s t hN hr i).trans (hread i)⟩
  · cases hq'
    exact ⟨hvR, bankRead_reflected_filled t hR⟩

/-! Operations and sessions (R18, R64, R187, R191). -/

/-- What is true once the block has answered a part of a session that began in `s`: it waits in `IDLE` for `rest`, has emitted
`ws` and nothing else, has not faulted, and holds the builds `p`. -/
structure Served (s t : State) (rest : List HostEvent) (ws : List IoWord) (p : Builds) : Prop where
  phase : t.phase = .idle
  input : t.input = rest
  out : t.out = s.out ++ ws
  taken : t.taken = s.taken
  cause : t.cause = s.cause
  builds : HoldsBuilds p t

/-- One part of a session after another. -/
theorem Served.trans {s t u : State} {rest rest' : List HostEvent} {ws ws' : List IoWord} {p p' : Builds}
    (h : Served s t rest ws p) (h' : Served t u rest' ws' p') : Served s u rest' (ws ++ ws') p' where
  phase := h'.phase
  input := h'.input
  out := by rw [h'.out, h.out, List.append_assoc]
  taken := h'.taken.trans h.taken
  cause := h'.cause.trans h.cause
  builds := h'.builds

/-- A host that has built the table an engine needs finds it ready, and the function's words are the engine's result. -/
theorem engineResult_of_words {op : ChecksumOp} {M : Message} {p : Builds} {ws : List IoWord} {s : State}
    (hw : (Operation.checksum op M).words p = some ws) (hb : HoldsBuilds p s) :
    tableReady op s = true ∧ ws = [lastWord (engineResult op M s)] := by
  cases op with
  | crc8s => cases hw; exact ⟨rfl, rfl⟩
  | crc8sr => cases hw; exact ⟨rfl, rfl⟩
  | crc8t =>
    obtain ⟨q, hq, rfl⟩ := Option.map_eq_some_iff.1 hw
    obtain ⟨hv, hread⟩ := hb.normal_read hq
    exact ⟨hv, by rw [engineResult, hread]⟩
  | crc8tr =>
    obtain ⟨q, hq, rfl⟩ := Option.map_eq_some_iff.1 hw
    obtain ⟨hv, hread⟩ := hb.reflected_read hq
    exact ⟨hv, by rw [engineResult, hread]⟩

/-- One operation: the block answers it with the words the functions give. -/
theorem runSteps_operation {o : Operation} {p : Builds} {ws : List IoWord} {s : State} {rest : List HostEvent}
    (hp : s.phase = .idle) (hb : HoldsBuilds p s) (hi : s.input = o.events ++ rest) (hw : o.words p = some ws) :
    ∃ t, runSteps o.events.length s = .next t ∧ Served s t rest ws (o.buildsAfter p) := by
  have hp' : { s with input := rest }.phase = .idle := hp
  cases o with
  | reflect v =>
    cases hw
    exact ⟨_, runSteps_offer hp hi (exec_reflect8_idle hp' v), hp, rfl, rfl, rfl, rfl, hb.congr rfl rfl rfl rfl rfl⟩
  | build b q =>
    cases b with
    | normal =>
      cases hw
      exact ⟨_, runSteps_offer hp hi (exec_bldt_idle hp' q), hp, rfl, rfl, rfl, rfl, hb.fill_normal rfl rfl rfl rfl rfl⟩
    | reflected =>
      cases hw
      exact ⟨_, runSteps_offer hp hi (exec_bldtr_idle hp' q), hp, rfl, rfl, rfl, rfl,
        hb.fill_reflected rfl rfl rfl rfl rfl⟩
  | checksum op M =>
    obtain ⟨hready, rfl⟩ := engineResult_of_words hw hb
    exact ⟨_, runSteps_checksumEvents hp hready hi, hp, rfl, rfl, rfl, rfl, hb.congr rfl rfl rfl rfl rfl⟩

/-- A session with results begins with an operation that has words, and the rest of it has results. -/
theorem sessionResults_cons {o : Operation} {os : List Operation} {p : Builds} {rs : List (List IoWord)}
    (h : sessionResults (o :: os) p = some rs) :
    ∃ ws rs', o.words p = some ws ∧ sessionResults os (o.buildsAfter p) = some rs' ∧ rs = ws :: rs' := by
  rw [sessionResults] at h
  split at h
  · rename_i ws rs' hw hrs
    cases h
    exact ⟨ws, rs', hw, hrs, rfl⟩
  · cases h

/-- A session, operation after operation. -/
theorem runSteps_session {os : List Operation} {p : Builds} {rs : List (List IoWord)} {s : State} {rest : List HostEvent}
    (hp : s.phase = .idle) (hb : HoldsBuilds p s) (hi : s.input = sessionEvents os ++ rest)
    (hrs : sessionResults os p = some rs) :
    ∃ t, runSteps (sessionEvents os).length s = .next t ∧ Served s t rest rs.flatten (sessionBuilds os p) := by
  induction os generalizing p rs s with
  | nil =>
    cases hrs
    exact ⟨s, rfl, hp, hi, (List.append_nil _).symm, rfl, rfl, hb⟩
  | cons o os ih =>
    obtain ⟨ws, rs', hw, hrs', rfl⟩ := sessionResults_cons hrs
    have hev : sessionEvents (o :: os) = o.events ++ sessionEvents os := List.flatMap_cons
    rw [hev, List.append_assoc] at hi
    obtain ⟨t, ht, hst⟩ := runSteps_operation hp hb hi hw
    obtain ⟨u, hu, htu⟩ := ih hst.phase hst.builds hst.input hrs'
    rw [hev, List.length_append, List.flatten_cons]
    exact ⟨u, runSteps_trans ht hu, hst.trans htu⟩

/-- Settles O53, by induction on the session: each operation leaves the block in `IDLE` with the builds the next one needs. -/
theorem sessionsReturnFunctionResults : Obligations.SessionsReturnFunctionResults := by
  intro os p rs s rest hp hb hi hrs
  obtain ⟨t, ht, h⟩ := runSteps_session hp hb hi hrs
  exact ⟨t, ht, h.phase, h.input, h.out, h.taken, h.cause, h.builds⟩

end Sys2Proof.Machine
end

section
/-! PROOFS. The words that decode (R61, R62, R65), everything the step on a word can do, one case for each kind of effect with
its guard, and the statements of who writes what (O17, O18, O38, O40, O41, O42). -/

namespace Sys2Proof.Machine

/-! A word that decodes is the encoding of what it decodes to. -/

/-- A row with an operand decodes only the command words of its opcode. -/
theorem withOperand_ok {w : IoWord} {row : Byte → Instr} {i : Instr} {o : BitVec 4} (ho : (fieldOPC w).toNat = o.toNat)
    (h : withOperand w row = .ok i) : ∃ v, i = row v ∧ commandWord o v = w := by
  unfold withOperand at h
  split at h
  · cases h
  · rename_i hcz
    cases h
    exact ⟨_, rfl, by rw [← BitVec.eq_of_toNat_eq ho, commandWord_of_fields (not_not.1 hcz)]⟩

/-- A row without an operand decodes one command word, that of its opcode with `IMM8 = 0`. -/
theorem withoutOperand_ok {w : IoWord} {row i : Instr} {o : BitVec 4} (ho : (fieldOPC w).toNat = o.toNat)
    (h : withoutOperand w row = .ok i) : i = row ∧ commandWord o 0x00 = w := by
  unfold withoutOperand at h
  split at h
  · cases h
  · split at h
    · cases h
    · rename_i hcz him
      cases h
      exact ⟨rfl, by rw [← BitVec.eq_of_toNat_eq ho, ← not_not.1 him, commandWord_of_fields (not_not.1 hcz)]⟩

theorem encode_of_decode {w : IoWord} {i : Instr} (h : decode w = .ok i) : encode i = w := by
  unfold decode at h
  split at h <;> rename_i ho
  · obtain ⟨v, rfl, hw⟩ := withOperand_ok (o := 1) ho h; exact hw
  · obtain ⟨rfl, hw⟩ := withoutOperand_ok (o := 2) ho h; exact hw
  · obtain ⟨v, rfl, hw⟩ := withOperand_ok (o := 3) ho h; exact hw
  · obtain ⟨rfl, hw⟩ := withoutOperand_ok (o := 4) ho h; exact hw
  · obtain ⟨rfl, hw⟩ := withoutOperand_ok (o := 5) ho h; exact hw
  · obtain ⟨v, rfl, hw⟩ := withOperand_ok (o := 6) ho h; exact hw
  · obtain ⟨rfl, hw⟩ := withoutOperand_ok (o := 7) ho h; exact hw
  · cases h

/-! The fields of a data word as numbers (R62). -/

theorem toNat_fieldDZ (w : IoWord) : (fieldDZ w).toNat = w.toNat / 256 % 128 := by
  simp [fieldDZ, BitVec.extractLsb'_toNat, Nat.shiftRight_eq_div_pow]

theorem toNat_fieldBYTE (w : IoWord) : (fieldBYTE w).toNat = w.toNat % 256 := by
  simp [fieldBYTE, BitVec.extractLsb'_toNat]

theorem fieldEOM_eq_decide (w : IoWord) : fieldEOM w = decide (32768 ≤ w.toNat) :=
  BitVec.msb_eq_decide w

theorem toNat_byteWord (b : Byte) : (encodeData (.byte b)).toNat = b.toNat := by
  have := b.isLt
  simp only [encodeData, BitVec.zero_or, BitVec.toNat_setWidth]
  omega

theorem encodeData_of_decodeData {w : IoWord} {d : DataWord} (h : decodeData w = .ok d) : encodeData d = w := by
  unfold decodeData at h
  split at h
  · cases h
  rename_i hdz
  have hDZ : w.toNat / 256 % 128 = 0 := by rw [← toNat_fieldDZ, not_not.1 hdz]; rfl
  have hlt := w.isLt
  apply BitVec.eq_of_toNat_eq
  split at h <;> rename_i heom <;> rw [fieldEOM_eq_decide, decide_eq_true_eq] at heom
  · split at h
    · cases h
    rename_i hbyte
    have hBYTE : w.toNat % 256 = 0 := by rw [← toNat_fieldBYTE, not_not.1 hbyte]; rfl
    cases h
    change 32768 = w.toNat
    omega
  · cases h
    rw [toNat_byteWord, toNat_fieldBYTE]
    omega

theorem decode_eq_ok_iff {w : IoWord} {i : Instr} : decode w = .ok i ↔ w = encode i :=
  ⟨fun h => (encode_of_decode h).symm, fun h => h ▸ decode_encode i⟩

theorem decodeData_eq_ok_iff {w : IoWord} {d : DataWord} : decodeData w = .ok d ↔ w = encodeData d :=
  ⟨fun h => (encodeData_of_decodeData h).symm, fun h => h ▸ decodeData_encodeData d⟩

/-! The step on a word, by its decoding (R29, R60, R67). -/

theorem step_of_command {s : State} {w : IoWord} {rest : List HostEvent} (hp : s.phase = .idle)
    (hi : s.input = .word w :: rest) : step s = commandStep w { s with input := rest } :=
  (step_of_word hi).trans (consumeWord_idle (s := { s with input := rest }) hp w)

theorem step_of_data {s : State} {w : IoWord} {rest : List HostEvent} (hp : s.phase = .msg)
    (hi : s.input = .word w :: rest) : step s = dataStep w { s with input := rest } :=
  (step_of_word hi).trans (consumeWord_msg (s := { s with input := rest }) hp w)

/-- Settles O17: `PHASE` chooses the decoder, and the decoding chooses the step. -/
theorem stepRunsDecodedWord : Obligations.StepRunsDecodedWord := fun _ _ _ hi =>
  ⟨fun hp _ hd => (step_of_command hp hi).trans (commandStep_ok hd _),
    fun hp _ hd => (step_of_command hp hi).trans (commandStep_error hd _),
    fun hp _ hd => (step_of_data hp hi).trans (dataStep_ok hd _),
    fun hp _ hd => (step_of_data hp hi).trans (dataStep_error hd _)⟩

/-- Everything the step on `w` can do to `s`, with the guard of each case: `consumeWord_next` with what `w` decodes to. -/
inductive WordEffect (w : IoWord) (s t : State) : Prop where
  | reflected (v : Byte) (hp : s.phase = .idle) (hd : decode w = .ok (.reflect8 v)) (ht : t = emit (lastWord (reflect8 v)) s)
  | builtNormal (q : Byte) (hp : s.phase = .idle) (hd : decode w = .ok (.bldt q)) (ht : t = buildBank .normal (tableN q) s)
  | builtReflected (q : Byte) (hp : s.phase = .idle) (hd : decode w = .ok (.bldtr q))
      (ht : t = buildBank .reflected (tableR q) s)
  | started (op : ChecksumOp) (hp : s.phase = .idle) (hd : decode w = .ok (checksumCommand op))
      (hr : tableReady op s = true) (ht : t = startMessage op s)
  | notBuilt (op : ChecksumOp) (hp : s.phase = .idle) (hd : decode w = .ok (checksumCommand op))
      (hr : tableReady op s = false) (ht : t = raiseFault .tableNotBuilt s)
  | badCommand (e : CommandError) (hp : s.phase = .idle) (hd : decode w = .error e) (ht : t = raiseFault .illegalCommand s)
  | byte (b : Byte) (hp : s.phase = .msg) (hd : decodeData w = .ok (.byte b)) (ht : t = byteStep b s)
  | ended (hp : s.phase = .msg) (hd : decodeData w = .ok .endOfMessage) (ht : t = endMessage s)
  | badData (e : DataError) (hp : s.phase = .msg) (hd : decodeData w = .error e) (ht : t = raiseFault .illegalDataWord s)

theorem wordEffect_of_checksumCommand {w : IoWord} {s t : State} (op : ChecksumOp) (hp : s.phase = .idle)
    (hd : decode w = .ok (checksumCommand op)) (h : beginChecksum op s = .next t) : WordEffect w s t := by
  obtain ⟨_, hr, ht⟩ | ⟨_, hr, ht⟩ | ⟨hm, _⟩ := beginChecksum_next h
  · exact .started op hp hd hr ht
  · exact .notBuilt op hp hd hr ht
  · rw [hp] at hm; cases hm

theorem wordEffect_of_command {w : IoWord} {i : Instr} {s t : State} (hp : s.phase = .idle) (hd : decode w = .ok i)
    (h : exec i s = .next t) : WordEffect w s t := by
  cases i with
  | reflect8 v => cases (whenIdle_idle hp _).symm.trans h; exact .reflected v hp hd rfl
  | bldt q => cases (whenIdle_idle hp _).symm.trans h; exact .builtNormal q hp hd rfl
  | bldtr q => cases (whenIdle_idle hp _).symm.trans h; exact .builtReflected q hp hd rfl
  | crc8s => exact wordEffect_of_checksumCommand .crc8s hp hd h
  | crc8t => exact wordEffect_of_checksumCommand .crc8t hp hd h
  | crc8sr => exact wordEffect_of_checksumCommand .crc8sr hp hd h
  | crc8tr => exact wordEffect_of_checksumCommand .crc8tr hp hd h

theorem consumeWord_effect {w : IoWord} {s t : State} (h : consumeWord w s = .next t) : WordEffect w s t := by
  cases hp : s.phase with
  | idle =>
    rw [consumeWord_idle hp] at h
    cases hd : decode w with
    | ok i => exact wordEffect_of_command hp hd ((commandStep_ok hd s).symm.trans h)
    | error e => cases (commandStep_error hd s).symm.trans h; exact .badCommand e hp hd rfl
  | msg =>
    rw [consumeWord_msg hp] at h
    cases hd : decodeData w with
    | ok d =>
      cases (dataStep_ok hd s).symm.trans h
      cases d with
      | byte b => exact .byte b hp hd rfl
      | endOfMessage => exact .ended hp hd rfl
    | error e => cases (dataStep_error hd s).symm.trans h; exact .badData e hp hd rfl
  | fault => rw [consumeWord_fault hp] at h; cases h

/-! What the step on a word leaves alone (R29, R195). -/

/-- A step on a word, a meaning among them, touches the ports in one way only: it appends to `OUT`. -/
structure AppendsToOut (s t : State) : Prop where
  input : t.input = s.input
  out : ∃ ws, t.out = s.out ++ ws
  taken : t.taken = s.taken
  resets : t.resets = s.resets

theorem appendsToOut_emitAll (ws : List IoWord) (s : State) : AppendsToOut s (emitAll ws s) := ⟨rfl, ⟨ws, rfl⟩, rfl, rfl⟩

theorem appendsToOut_raiseFault (k : FaultKind) (s : State) : AppendsToOut s (raiseFault k s) := ⟨rfl, ⟨_, rfl⟩, rfl, rfl⟩

theorem appendsToOut_buildBank (b : BankId) (T : Table) (s : State) : AppendsToOut s (buildBank b T s) := by
  cases b <;> exact ⟨rfl, ⟨_, rfl⟩, rfl, rfl⟩

theorem WordEffect.appendsToOut {w : IoWord} {s t : State} (h : WordEffect w s t) : AppendsToOut s t := by
  cases h with
  | reflected v _ _ ht => exact ht ▸ appendsToOut_emitAll _ s
  | builtNormal q _ _ ht | builtReflected q _ _ ht => exact ht ▸ appendsToOut_buildBank _ _ s
  | notBuilt _ _ _ _ ht | badCommand _ _ _ ht | badData _ _ _ ht => exact ht ▸ appendsToOut_raiseFault _ s
  | started op _ _ _ ht => exact ht ▸ ⟨rfl, ⟨[], (List.append_nil _).symm⟩, rfl, rfl⟩
  | byte b _ _ ht => exact ht ▸ ⟨rfl, ⟨[], (List.append_nil _).symm⟩, rfl, rfl⟩
  | ended _ _ ht => exact ht ▸ ⟨rfl, ⟨_, rfl⟩, rfl, rfl⟩

/-- Settles O18: outside `FAULT` the step on a word is total, and all it does at the ports is to append to `OUT`. -/
theorem everyWordIsConsumed : Obligations.EveryWordIsConsumed := by
  intro s w rest hi hp
  obtain ⟨t, ht⟩ := consumeWord_total (s := { s with input := rest }) hp w
  obtain ⟨hin, ⟨ws, hout⟩, htaken, hresets⟩ := (consumeWord_effect ht).appendsToOut
  exact ⟨t, ws, (step_of_word hi).trans ht, hin, hout, htaken, hresets⟩

/-! A build writes its own bank, its flag and `OUT`. -/

@[simp] theorem buildBank_phase (b : BankId) (T : Table) (s : State) : (buildBank b T s).phase = s.phase := by cases b <;> rfl
@[simp] theorem buildBank_op (b : BankId) (T : Table) (s : State) : (buildBank b T s).op = s.op := by cases b <;> rfl
@[simp] theorem buildBank_acc (b : BankId) (T : Table) (s : State) : (buildBank b T s).acc = s.acc := by cases b <;> rfl
@[simp] theorem buildBank_cause (b : BankId) (T : Table) (s : State) : (buildBank b T s).cause = s.cause := by cases b <;> rfl

/-- Settles O38: a build that is accepted changes its own bank and flag and appends to `OUT`; inside a message it is a bad
data word, which changes neither bank. -/
theorem frameOfBuilds : Obligations.FrameOfBuilds := by
  intro q s t
  constructor <;> intro h <;> obtain ⟨hp, h⟩ | ⟨hp, rfl⟩ := whenIdle_next h
  case left.inl | right.inl =>
    cases h
    exact ⟨fun _ => rfl, rfl, rfl, rfl, rfl, rfl, rfl, rfl, ⟨_, rfl⟩, fun _ => ⟨rfl, rfl⟩, fun hf => by simp [hp] at hf⟩
  case left.inr | right.inr =>
    exact ⟨fun _ => rfl, rfl, rfl, rfl, rfl, rfl, rfl, rfl, ⟨_, rfl⟩, fun hf => absurd rfl hf, fun _ => ⟨fun _ => rfl, rfl⟩⟩

/-! Who writes `ACC`, `OP` and `PHASE` (R20, R25, R26, R28, R94). -/

/-- A byte word, with its upper eight bits zero, as the host encodes it. -/
theorem setWidth_eq_byteWord (b : Byte) : b.setWidth 16 = encodeData (.byte b) := BitVec.zero_or.symm

/-- The four checksum command words. -/
theorem checksumCommand_word (op : ChecksumOp) :
    (encode (checksumCommand op) = 0x2000 ∧ op = .crc8s) ∨ (encode (checksumCommand op) = 0x4000 ∧ op = .crc8t) ∨
    (encode (checksumCommand op) = 0x5000 ∧ op = .crc8sr) ∨ (encode (checksumCommand op) = 0x7000 ∧ op = .crc8tr) := by
  cases op <;> decide

/-- Settles O40: of the kinds of effect only the start of a message writes `OP`, and only that and a message byte write
`ACC`. -/
theorem accumulatorAndOpWriters : Obligations.AccumulatorAndOpWriters := by
  intro s t w rest hi hs
  cases consumeWord_effect ((step_of_word hi).symm.trans hs) with
  | started op hp hd hr ht =>
    cases decode_eq_ok_iff.1 hd
    have hw := checksumCommand_word op
    exact ht ▸ ⟨fun _ => .inr ⟨hp, rfl, rfl, hw.imp And.left (.imp And.left (.imp And.left And.left))⟩,
      fun _ => ⟨hp, rfl, hw⟩⟩
  | byte b hp hd ht =>
    have hw := (decodeData_eq_ok_iff.1 hd).trans (setWidth_eq_byteWord b).symm
    exact ht ▸ ⟨fun _ => .inl ⟨hp, hp, b, hw⟩, fun h => absurd rfl h⟩
  | reflected _ _ _ ht | builtNormal _ _ _ ht | builtReflected _ _ _ ht | notBuilt _ _ _ _ ht | badCommand _ _ _ ht
  | ended _ _ ht | badData _ _ _ ht => simp [ht]

/-- From `IDLE`, by what the word decodes to. -/
theorem WordEffect.phase_of_idle {w : IoWord} {s t : State} (h : WordEffect w s t) (hp : s.phase = .idle) :
    (t.phase = .msg ↔ decode w = .ok .crc8s ∨ decode w = .ok .crc8sr ∨ (decode w = .ok .crc8t ∧ s.tvN = true) ∨
      (decode w = .ok .crc8tr ∧ s.tvR = true)) ∧
    (t.phase = .idle ↔ ∃ v, decode w = .ok (.reflect8 v) ∨ decode w = .ok (.bldt v) ∨ decode w = .ok (.bldtr v)) := by
  cases h with
  | reflected _ _ hd ht | builtNormal _ _ hd ht | builtReflected _ _ hd ht | badCommand _ _ hd ht => simp [ht, hd, hp]
  | started op _ hd hr ht | notBuilt op _ hd hr ht => cases op <;> simp_all [checksumCommand]
  | byte _ hm | ended hm | badData _ hm => rw [hp] at hm; cases hm

/-- From `MSG`, by what the word decodes to. -/
theorem WordEffect.phase_of_msg {w : IoWord} {s t : State} (h : WordEffect w s t) (hp : s.phase = .msg) :
    (t.phase = .idle ↔ decodeData w = .ok .endOfMessage) ∧
    (t.phase = .msg ↔ ∃ b, decodeData w = .ok (.byte b)) := by
  cases h with
  | byte _ _ hd ht | ended _ hd ht | badData _ _ hd ht => simp [ht, hd, hp]
  | reflected _ hi | builtNormal _ hi | builtReflected _ hi | started _ hi | notBuilt _ hi | badCommand _ hi =>
    rw [hp] at hi; cases hi

/-- `CAUSE` is written at fault entry only (R28). -/
theorem WordEffect.cause_of_no_fault {w : IoWord} {s t : State} (h : WordEffect w s t) (hp : t.phase ≠ .fault) :
    t.cause = s.cause := by
  cases h with
  | notBuilt _ _ _ _ ht | badCommand _ _ _ ht | badData _ _ _ ht => rw [ht] at hp; exact absurd rfl hp
  | reflected _ _ _ ht | builtNormal _ _ _ ht | builtReflected _ _ _ ht | started _ _ _ _ ht | byte _ _ _ ht
  | ended _ _ ht => simp [ht]

/-- Settles O41: the words of the statement are the encodings of what the two decoders ask for. -/
theorem phaseMovesOnlyAsRuled : Obligations.PhaseMovesOnlyAsRuled := by
  intro s t w rest hi hs
  have h := consumeWord_effect ((step_of_word hi).symm.trans hs)
  refine ⟨fun hp => ?_, fun hp => ?_, h.cause_of_no_fault⟩
  · have hphase := h.phase_of_idle hp
    simp only [decode_eq_ok_iff] at hphase
    exact hphase
  · have hphase := h.phase_of_msg hp
    simp only [decodeData_eq_ok_iff, ← setWidth_eq_byteWord] at hphase
    exact hphase

/-! What the byte step reads (R23, R189). -/

/-- The accumulator after a message byte depends on `OP`, `ACC` and the bank that `OP` reads, if it reads one. -/
theorem accAfterByte_congr (b : Byte) {s t : State} (hop : s.op = t.op) (hacc : s.acc = t.acc)
    (hN : s.op = .crc8t → ∀ i, bankRead .normal s i = bankRead .normal t i)
    (hR : s.op = .crc8tr → ∀ i, bankRead .reflected s i = bankRead .reflected t i) :
    accAfterByte b s = accAfterByte b t := by
  have hmix : ∀ op, mixedByte op b s = mixedByte op b t := fun op => by rw [mixedByte, mixedByte, hacc]
  unfold accAfterByte
  rw [← hop]
  cases ho : s.op with
  | crc8s => exact congrArg (byteN · Config.POLY) (hmix _)
  | crc8sr => exact congrArg (byteR · Config.RPOLY) (hmix _)
  | crc8t => exact (hN ho _).trans (congrArg (bankRead .normal t) (hmix _))
  | crc8tr => exact (hR ho _).trans (congrArg (bankRead .reflected t) (hmix _))

/-- Settles O42: the byte step looks up the bank of `OP` alone, and the end of a message none. -/
theorem otherBankIsNeverRead : Obligations.OtherBankIsNeverRead := by
  intro s d m
  cases d with
  | endOfMessage => exact ⟨fun _ => rfl, fun _ => rfl⟩
  | byte b =>
    exact ⟨fun hop => congrArg (fun a => { s with tblR := m, acc := a })
        (accAfterByte_congr b (s := { s with tblR := m }) (t := s) rfl rfl (fun _ _ => rfl) fun h => absurd h hop),
      fun hop => congrArg (fun a => { s with tblN := m, acc := a })
        (accAfterByte_congr b (s := { s with tblN := m }) (t := s) rfl rfl (fun h => absurd h hop) fun _ _ => rfl)⟩

end Sys2Proof.Machine
end

section
/-! PROOFS. What one step does to a bank and its flag (O39), the invariant (O58) with the builds behind it (O59), and what no
host can observe (O60). -/

namespace Sys2Proof.Machine

/-! The two banks side by side, so that each fact below is said once for both (R22, R23, R24). -/

/-- The command that builds a bank (R101, R126). -/
def buildCommand : BankId → Byte → Instr
  | .normal, q => .bldt q
  | .reflected, q => .bldtr q

/-- The table that a build puts in a bank (R101, R126). -/
def builtTable : BankId → Byte → Table
  | .normal, q => tableN q
  | .reflected, q => tableR q

/-- The operand of the most recent build of a bank (R34). -/
def Builds.of (p : Builds) : BankId → Option Byte
  | .normal => p.normal
  | .reflected => p.reflected

/-- A bank and its flag are the same, and so is the count of resets, on which the value of an unlisted entry depends. -/
structure SameBank (b : BankId) (s t : State) : Prop where
  bank : bankOf b t = bankOf b s
  valid : tableValid b t = tableValid b s
  resets : t.resets = s.resets

theorem SameBank.read {b : BankId} {s t : State} (h : SameBank b s t) (i : Byte) : bankRead b t i = bankRead b s i :=
  bankRead_congr b s t h.bank h.resets i

theorem sameBank_of_fields (b : BankId) {s t : State} (hN : t.tblN = s.tblN) (hR : t.tblR = s.tblR) (hvN : t.tvN = s.tvN)
    (hvR : t.tvR = s.tvR) (hr : t.resets = s.resets) : SameBank b s t := by
  cases b with
  | normal => exact ⟨hN, hvN, hr⟩
  | reflected => exact ⟨hR, hvR, hr⟩

@[simp] theorem tableValid_buildBank (b : BankId) (T : Table) (s : State) : tableValid b (buildBank b T s) = true := by
  cases b <;> rfl

@[simp] theorem bankOf_buildBank (b : BankId) (T : Table) (s : State) :
    bankOf b (buildBank b T s) = fillBank T (bankOf b s) := by cases b <;> rfl

/-- After a build the bank holds the table, whatever was in it. -/
theorem bankHolds_buildBank (b : BankId) (T : Table) (s : State) : BankHolds b T (buildBank b T s) :=
  bankRead_of_filled b (bankOf_buildBank b T s)

/-! What one step does to a bank (R55). -/

/-- Everything a step can do to the bank `b`, with the most recent build of it after that step. -/
inductive BankEffect (b : BankId) (s t : State) : Prop where
  | kept (h : SameBank b s t) (hb : ∀ p, (buildsAfterEvent s p).of b = p.of b)
  | built (q : Byte) (rest : List HostEvent) (hp : s.phase = .idle) (hi : s.input = .word (encode (buildCommand b q)) :: rest)
      (ht : t = buildBank b (builtTable b q) { s with input := rest })
  | reset (u : State) (hi : (∃ rest, s.input = .rst :: rest) ∨ ∃ w n rest, s.input = .rstDuring w n :: rest)
      (ht : t = applyReset u)

/-- The step on a word changes a bank by its own build only. -/
theorem WordEffect.bankEffect {w : IoWord} {rest : List HostEvent} {s t : State} (hi : s.input = .word w :: rest)
    (h : WordEffect w { s with input := rest } t) (b : BankId) : BankEffect b s t := by
  cases h with
  | builtNormal q hp hd ht =>
    replace hp : s.phase = .idle := hp
    cases b with
    | normal => exact .built q rest hp (by rw [hi, ← encode_of_decode hd]; rfl) ht
    | reflected => exact .kept (ht ▸ ⟨rfl, rfl, rfl⟩) fun p => by simp [buildsAfterEvent, hi, hd, hp, Builds.of]
  | builtReflected q hp hd ht =>
    replace hp : s.phase = .idle := hp
    cases b with
    | normal => exact .kept (ht ▸ ⟨rfl, rfl, rfl⟩) fun p => by simp [buildsAfterEvent, hi, hd, hp, Builds.of]
    | reflected => exact .built q rest hp (by rw [hi, ← encode_of_decode hd]; rfl) ht
  | reflected _ _ hd ht | badCommand _ _ hd ht =>
    exact .kept (ht ▸ sameBank_of_fields b rfl rfl rfl rfl rfl) fun p => by simp [buildsAfterEvent, hi, hd]
  | started op _ hd _ ht | notBuilt op _ hd _ ht =>
    exact .kept (ht ▸ sameBank_of_fields b rfl rfl rfl rfl rfl) fun p => by
      cases op <;> simp [buildsAfterEvent, hi, hd, checksumCommand]
  | byte _ hp _ ht | ended hp _ ht | badData _ hp _ ht =>
    replace hp : s.phase = .msg := hp
    exact .kept (ht ▸ sameBank_of_fields b rfl rfl rfl rfl rfl) fun p => by simp [buildsAfterEvent, hi, hp]

theorem step_bankEffect {s t : State} (h : step s = .next t) (b : BankId) : BankEffect b s t := by
  obtain ⟨hi, _, rfl⟩ | ⟨w, rest, hi, hw⟩ | ⟨rest, hi, rfl⟩ | ⟨w, n, rest, hi, hr⟩ | ⟨rest, hi, rfl⟩ := step_next h
  · exact .kept ⟨rfl, rfl, rfl⟩ fun p => by rw [buildsAfterEvent, hi]
  · exact (consumeWord_effect hw).bankEffect hi b
  · exact .reset _ (.inl ⟨rest, hi⟩) rfl
  · obtain ⟨_, _, rfl⟩ | ⟨_, rfl⟩ := resetDuring_next hr <;> exact .reset _ (.inr ⟨w, n, rest, hi⟩) rfl
  · exact .kept (by apply sameBank_of_fields <;> simp) fun p => by rw [buildsAfterEvent, hi]

/-- A bank that reads otherwise after a step, or whose flag has changed, was built or reset. -/
theorem BankEffect.of_change {b : BankId} {s t : State} (h : BankEffect b s t)
    (hc : (∃ j, bankRead b t j ≠ bankRead b s j) ∨ tableValid b t ≠ tableValid b s) :
    (s.phase = .idle ∧ ∃ q rest, s.input = .word (encode (buildCommand b q)) :: rest ∧
      BankHolds b (builtTable b q) t ∧ tableValid b t = true) ∨
    (∃ rest, s.input = .rst :: rest) ∨ (∃ w n rest, s.input = .rstDuring w n :: rest) := by
  cases h with
  | kept h _ => simp [h.read, h.valid] at hc
  | built q rest hp hi ht => exact .inl ⟨hp, q, rest, hi, ht ▸ bankHolds_buildBank b _ _, ht ▸ tableValid_buildBank b _ _⟩
  | reset _ hi _ => exact .inr hi

/-- Settles O39: `BankEffect.of_change` for the two banks. -/
theorem banksChangeOnlyByBuildOrReset : Obligations.BanksChangeOnlyByBuildOrReset := fun _ _ hs =>
  ⟨(step_bankEffect hs .normal).of_change, (step_bankEffect hs .reflected).of_change⟩

/-! The banks' half of the invariant (R34 (a), (b), (e), R24, R40, R47). -/

/-- The invariant of one bank: valid, it is the table of a polynomial; not valid, nothing is listed; and it is canonical. -/
structure BankInv (b : BankId) (s : State) : Prop where
  table : tableValid b s = true → ∃ q, BankHolds b (builtTable b q) s
  canonical : Memory.wf (bankOf b s) = true
  whole : tableValid b s = false → bankOf b s = []

theorem BankInv.congr {b : BankId} {s t : State} (h : BankInv b s) (hst : SameBank b s t) : BankInv b t where
  table hv := (h.table (hst.valid ▸ hv)).imp fun _ hq i => (hst.read i).trans (hq i)
  canonical := hst.bank ▸ h.canonical
  whole hv := hst.bank.trans (h.whole (hst.valid ▸ hv))

theorem BankInv.build {b : BankId} {s : State} (h : BankInv b s) (q : Byte) :
    BankInv b (buildBank b (builtTable b q) s) where
  table _ := ⟨q, bankHolds_buildBank b _ s⟩
  canonical := bankOf_buildBank b _ s ▸ wf_fillBank _ h.canonical
  whole hv := by simp at hv

/-- A bank with nothing listed and its flag at 0, as a reset leaves it. -/
theorem bankInv_of_unbuilt {b : BankId} {s : State} (hv : tableValid b s = false) (hm : bankOf b s = []) : BankInv b s where
  table h := by simp [hv] at h
  canonical := hm ▸ Memory.wf_nil
  whole _ := hm

theorem bankInv_applyReset (b : BankId) (s : State) : BankInv b (applyReset s) := by
  cases b <;> exact bankInv_of_unbuilt rfl rfl

theorem BankInv.step {b : BankId} {s t : State} (h : BankInv b s) (hs : step s = .next t) : BankInv b t := by
  cases step_bankEffect hs b with
  | kept hst _ => exact h.congr hst
  | built q rest _ _ ht =>
    have hin : SameBank b s { s with input := rest } := sameBank_of_fields b rfl rfl rfl rfl rfl
    exact ht ▸ (h.congr hin).build q
  | reset u _ ht => exact ht ▸ bankInv_applyReset b u

/-- R34 (e) follows from R34 (a), (b): no round changes 0. -/
theorem builtTable_zero (b : BankId) (q : Byte) : builtTable b q 0 = 0 := by
  cases b with
  | normal => simp [builtTable, tableN, byteN, rounds, roundN, shl1]
  | reflected => simp [builtTable, tableR, byteR, rounds, roundR, shr1]

theorem BankInv.entryZero {b : BankId} {s : State} (h : BankInv b s) (hv : tableValid b s = true) : bankRead b s 0 = 0 := by
  obtain ⟨q, hq⟩ := h.table hv
  rw [hq, builtTable_zero]

/-! The sequencer's half of the invariant (R34 (c), (d), R160). -/

/-- The invariant of `PHASE`, `OP` and `CAUSE`. -/
structure ControlInv (s : State) : Prop where
  engine : EngineHasTable s
  cause : CauseMatchesPhase s
  produced : CauseIsProduced s

theorem ControlInv.cause_zero {s : State} (h : ControlInv s) (hp : s.phase ≠ .fault) : s.cause = 0 :=
  not_not.1 fun hc => hp (h.cause.2 hc)

theorem controlInv_of_no_fault {s : State} (hp : s.phase ≠ .fault) (hc : s.cause = 0) (he : EngineHasTable s) :
    ControlInv s where
  engine := he
  cause := ⟨fun h => absurd h hp, fun h => absurd hc h⟩
  produced := by simp [CauseIsProduced, hc]

theorem engineHasTable_of_phase {s : State} (hp : s.phase ≠ .msg) : EngineHasTable s :=
  ⟨fun h => absurd h.1 hp, fun h => absurd h.1 hp⟩

theorem controlInv_of_idle {s : State} (hp : s.phase = .idle) (hc : s.cause = 0) : ControlInv s :=
  controlInv_of_no_fault (by simp [hp]) hc (engineHasTable_of_phase (by simp [hp]))

theorem controlInv_raiseFault (k : FaultKind) (s : State) : ControlInv (raiseFault k s) where
  engine := engineHasTable_of_phase (by simp)
  cause := by cases k <;> simp [CauseMatchesPhase, faultCode]
  produced := by cases k <;> simp [CauseIsProduced, faultCode]

theorem engineHasTable_startMessage {op : ChecksumOp} {s : State} (hr : tableReady op s = true) :
    EngineHasTable (startMessage op s) := by
  cases op with
  | crc8s | crc8sr => simp [EngineHasTable]
  | crc8t | crc8tr => simpa [EngineHasTable] using hr

theorem ControlInv.word {w : IoWord} {s t : State} (h : ControlInv s) (hw : WordEffect w s t) : ControlInv t := by
  cases hw with
  | reflected _ hp _ ht | builtNormal _ hp _ ht | builtReflected _ hp _ ht =>
    have hc := h.cause_zero (by simp [hp])
    exact controlInv_of_idle (by simp [ht, hp]) (by simp [ht, hc])
  | ended hp _ ht =>
    have hc := h.cause_zero (by simp [hp])
    exact ht ▸ controlInv_of_idle rfl hc
  | started op hp _ hr ht =>
    have hc := h.cause_zero (by simp [hp])
    exact ht ▸ controlInv_of_no_fault (by simp) hc (engineHasTable_startMessage hr)
  | byte _ _ _ ht => exact ht ▸ ⟨h.engine, h.cause, h.produced⟩
  | notBuilt _ _ _ _ ht | badCommand _ _ _ ht | badData _ _ _ ht => exact ht ▸ controlInv_raiseFault _ s

theorem ControlInv.step {s t : State} (h : ControlInv s) (hs : step s = .next t) : ControlInv t := by
  obtain ⟨_, _, rfl⟩ | ⟨w, rest, _, hw⟩ | ⟨_, _, rfl⟩ | ⟨_, _, _, _, hr⟩ | ⟨rest, _, rfl⟩ := step_next hs
  · exact h
  · have hin : ControlInv { s with input := rest } := ⟨h.engine, h.cause, h.produced⟩
    exact hin.word (consumeWord_effect hw)
  · exact controlInv_of_idle rfl rfl
  · obtain ⟨_, _, rfl⟩ | ⟨_, rfl⟩ := resetDuring_next hr <;> exact controlInv_of_idle rfl rfl
  · exact ⟨by simpa [EngineHasTable] using h.engine, by simpa [CauseMatchesPhase] using h.cause,
      by simpa [CauseIsProduced] using h.produced⟩

/-! The whole invariant. -/

theorem machineInv_iff {s : State} : MachineInv s ↔ BankInv .normal s ∧ BankInv .reflected s ∧ ControlInv s := by
  constructor
  · rintro ⟨⟨⟨hN, hR⟩, he, hc, _⟩, ⟨hwN, hwR⟩, ⟨heN, heR⟩, hp⟩
    exact ⟨⟨hN, hwN, heN⟩, ⟨hR, hwR, heR⟩, ⟨he, hc, hp⟩⟩
  · rintro ⟨hN, hR, he, hc, hp⟩
    exact ⟨⟨⟨hN.table, hR.table⟩, he, hc, ⟨hN.entryZero, hR.entryZero⟩⟩, ⟨hN.canonical, hR.canonical⟩,
      ⟨hN.whole, hR.whole⟩, hp⟩

/-- Settles O58: each bank by what a step can do to it, the sequencer by the kinds of effect of a word. -/
theorem everyStepKeepsInvariant : Obligations.EveryStepKeepsInvariant := by
  intro s t h hs
  obtain ⟨hN, hR, hc⟩ := machineInv_iff.1 h
  exact machineInv_iff.2 ⟨hN.step hs, hR.step hs, hc.step hs⟩

/-! Runs from reset (R34). -/

theorem machineInv_reset (events : List HostEvent) : MachineInv { State.reset with input := events } :=
  machineInv_iff.2 ⟨bankInv_of_unbuilt rfl rfl, bankInv_of_unbuilt rfl rfl, controlInv_of_idle rfl rfl⟩

/-- A valid bank holds the table of its most recent build in `p`. -/
def HoldsLatest (b : BankId) (p : Builds) (s : State) : Prop :=
  tableValid b s = true → ∃ q, p.of b = some q ∧ BankHolds b (builtTable b q) s

theorem buildsAfterEvent_build {b : BankId} {q : Byte} {s : State} {rest : List HostEvent} (hp : s.phase = .idle)
    (hi : s.input = .word (encode (buildCommand b q)) :: rest) (p : Builds) : (buildsAfterEvent s p).of b = some q := by
  cases b <;> simp [buildsAfterEvent, hi, hp, buildCommand, Builds.of]

theorem HoldsLatest.step {b : BankId} {p : Builds} {s t : State} (h : HoldsLatest b p s) (hs : step s = .next t) :
    HoldsLatest b (buildsAfterEvent s p) t := by
  intro hv
  cases step_bankEffect hs b with
  | kept hst hb =>
    obtain ⟨q, hq, hread⟩ := h (hst.valid ▸ hv)
    exact ⟨q, (hb p).trans hq, fun i => (hst.read i).trans (hread i)⟩
  | built q rest hp hi ht => exact ⟨q, buildsAfterEvent_build hp hi p, ht ▸ bankHolds_buildBank b _ _⟩
  | reset u _ ht => rw [ht] at hv; cases b <;> cases hv

theorem runBuilds_of_step {s t : State} (h : step s = .next t) (k : Nat) (p : Builds) :
    runBuilds (k + 1) s p = runBuilds k t (buildsAfterEvent s p) := by
  simp only [runBuilds, h]

theorem HoldsLatest.run {b : BankId} {p : Builds} {k : Nat} {s t : State} (h : HoldsLatest b p s)
    (hr : runSteps k s = .next t) : HoldsLatest b (runBuilds k s p) t := by
  induction k generalizing s p with
  | zero => cases hr; exact h
  | succ k ih =>
    obtain ⟨u, hu, hr⟩ := runSteps_succ hr
    rw [runBuilds_of_step hu]
    exact ih (h.step hu) hr

/-- Settles O59, by induction on the run: the invariant, and beside it that valid banks hold their most recent builds. -/
theorem reachableStatesMeetR34 : Obligations.ReachableStatesMeetR34 := by
  intro events k t hr
  have hinv := runSteps_keeps everyStepKeepsInvariant (machineInv_reset events) hr
  have hlatest (b : BankId) : HoldsLatest b (runBuilds k { State.reset with input := events } ⟨none, none⟩) t :=
    HoldsLatest.run (fun hv => by cases b <;> cases hv) hr
  exact ⟨hinv.rule, hlatest .normal, hlatest .reflected⟩

/-! What no host can observe (R32, R33). -/

/-- Two answers no host can tell apart. -/
inductive Matched : Answer → Answer → Prop where
  | next {s t : State} (h : Alike s t) : Matched (.next s) (.next t)
  | fault (f : Fault) : Matched (.fault f) (.fault f)

theorem Alike.with_input {s t : State} (h : Alike s t) (rest : List HostEvent) :
    Alike { s with input := rest } { t with input := rest } := { h with input := rfl }

theorem Alike.with_out {s t : State} (h : Alike s t) (ws : List IoWord) :
    Alike { s with out := ws } { t with out := ws } := { h with out := rfl }

theorem alike_emitAll {s t : State} (h : Alike s t) (ws : List IoWord) : Alike (emitAll ws s) (emitAll ws t) :=
  { h with out := congrArg (· ++ ws) h.out }

theorem alike_raiseFault {s t : State} (h : Alike s t) (k : FaultKind) : Alike (raiseFault k s) (raiseFault k t) :=
  { alike_emitAll h _ with phase := rfl, cause := rfl, acc := nofun, op := nofun }

theorem alike_applyReset {s t : State} (h : Alike s t) : Alike (applyReset s) (applyReset t) :=
  { h with
    phase := rfl, cause := rfl, tvN := rfl, tvR := rfl
    acc := nofun, op := nofun, bankN := nofun, bankR := nofun }

theorem alike_takeWord {s t : State} (h : Alike s t) : Alike (takeWord s) (takeWord t) := by
  cases ho : s.out with
  | nil => rwa [takeWord_nil s ho, takeWord_nil t (h.out ▸ ho)]
  | cons w ws =>
    rw [takeWord_cons s w ws ho, takeWord_cons t w ws (h.out ▸ ho)]
    exact { h with out := rfl, taken := congrArg (· ++ [w]) h.taken }

theorem alike_startMessage {s t : State} (h : Alike s t) (op : ChecksumOp) :
    Alike (startMessage op s) (startMessage op t) :=
  { h with phase := rfl, acc := fun _ => rfl, op := fun _ => rfl }

/-- A build emits and stores its table, whatever the bank held. -/
theorem alike_buildBank {s t : State} (h : Alike s t) (b : BankId) (T : Table) :
    Alike (buildBank b T s) (buildBank b T t) := by
  have hread (i : Byte) := (bankHolds_buildBank b T s i).trans (bankHolds_buildBank b T t i).symm
  cases b with
  | normal =>
    rw [buildBank_normal, buildBank_normal] at *
    exact { h with tvN := rfl, out := congrArg (· ++ tableWords T) h.out, bankN := fun _ => hread }
  | reflected =>
    rw [buildBank_reflected, buildBank_reflected] at *
    exact { h with tvR := rfl, out := congrArg (· ++ tableWords T) h.out, bankR := fun _ => hread }

theorem Alike.ready {s t : State} (h : Alike s t) (op : ChecksumOp) : tableReady op s = tableReady op t := by
  cases op with
  | crc8s | crc8sr => rfl
  | crc8t => exact h.tvN
  | crc8tr => exact h.tvR

/-- Inside a message both engines compute the same accumulator: a table engine reads a valid bank. -/
theorem alike_byteStep {s t : State} (h : Alike s t) (he : EngineHasTable s) (hp : s.phase = .msg) (b : Byte) :
    Alike (byteStep b s) (byteStep b t) :=
  { h with
    acc := fun _ => accAfterByte_congr b (h.op hp) (h.acc hp) (fun ho => h.bankN (he.1 ⟨hp, ho⟩))
      fun ho => h.bankR (he.2 ⟨hp, ho⟩) }

theorem alike_endMessage {s t : State} (h : Alike s t) (hp : s.phase = .msg) : Alike (endMessage s) (endMessage t) := by
  have hresult : checksumResult s.op s = checksumResult t.op t := by
    simp only [checksumResult, h.op hp, h.acc hp]
  exact { h with phase := rfl, acc := nofun, op := nofun, out := by simp [h.out, hresult] }

theorem matched_whenIdle {s t : State} {a b : Answer} (h : Alike s t) (hab : Matched a b) :
    Matched (whenIdle s a) (whenIdle t b) := by
  cases hp : s.phase with
  | idle => rwa [whenIdle_idle hp, whenIdle_idle (h.phase ▸ hp)]
  | msg => rw [whenIdle_msg hp, whenIdle_msg (h.phase ▸ hp)]; exact .next (alike_raiseFault h _)
  | fault => rw [whenIdle_fault hp, whenIdle_fault (h.phase ▸ hp)]; exact .fault _

theorem matched_beginChecksum {s t : State} (h : Alike s t) (op : ChecksumOp) :
    Matched (beginChecksum op s) (beginChecksum op t) := by
  refine matched_whenIdle h (.next ?_)
  rw [← h.ready op]
  split
  · exact alike_startMessage h op
  · exact alike_raiseFault h _

theorem matched_exec {s t : State} (h : Alike s t) (i : Instr) : Matched (exec i s) (exec i t) := by
  cases i with
  | reflect8 v => exact matched_whenIdle h (.next (alike_emitAll h _))
  | bldt q | bldtr q => exact matched_whenIdle h (.next (alike_buildBank h _ _))
  | crc8s | crc8t | crc8sr | crc8tr => exact matched_beginChecksum h _

theorem matched_commandStep {s t : State} (h : Alike s t) (w : IoWord) : Matched (commandStep w s) (commandStep w t) := by
  cases hd : decode w with
  | ok i => rw [commandStep_ok hd, commandStep_ok hd]; exact matched_exec h i
  | error e => rw [commandStep_error hd, commandStep_error hd]; exact .next (alike_raiseFault h _)

theorem matched_dataStep {s t : State} (h : Alike s t) (he : EngineHasTable s) (hp : s.phase = .msg) (w : IoWord) :
    Matched (dataStep w s) (dataStep w t) := by
  cases hd : decodeData w with
  | error e => rw [dataStep_error hd, dataStep_error hd]; exact .next (alike_raiseFault h _)
  | ok d =>
    rw [dataStep_ok hd, dataStep_ok hd]
    cases d with
    | byte b => exact .next (alike_byteStep h he hp b)
    | endOfMessage => exact .next (alike_endMessage h hp)

theorem matched_consumeWord {s t : State} (h : Alike s t) (he : EngineHasTable s) (w : IoWord) :
    Matched (consumeWord w s) (consumeWord w t) := by
  cases hp : s.phase with
  | idle => rw [consumeWord_idle hp, consumeWord_idle (h.phase ▸ hp)]; exact matched_commandStep h w
  | msg => rw [consumeWord_msg hp, consumeWord_msg (h.phase ▸ hp)]; exact matched_dataStep h he hp w
  | fault => rw [consumeWord_fault hp, consumeWord_fault (h.phase ▸ hp)]; exact .fault _

/-- A reset inside a step lets the same words leave. -/
theorem matched_resetDuring {s t : State} (h : Alike s t) (he : EngineHasTable s) (w : IoWord) (n : Nat) :
    Matched (resetDuring w n s) (resetDuring w n t) := by
  have hw := matched_consumeWord (h.with_out []) he w
  unfold resetDuring
  revert hw
  generalize consumeWord w { s with out := [] } = a
  generalize consumeWord w { t with out := [] } = b
  rintro (hst | _)
  · exact .next (alike_applyReset (hst.out ▸ alike_emitAll h _))
  · exact .next (alike_applyReset (h.input ▸ h.with_input _))

theorem matched_waitForHost {s t : State} (h : Alike s t) : Matched (waitForHost s) (waitForHost t) := by
  unfold waitForHost
  rw [← h.phase]
  split
  · exact .next h
  · exact .next h
  · exact .fault _

theorem matched_step {s t : State} (h : Alike s t) (he : EngineHasTable s) : Matched (step s) (step t) := by
  match hi : s.input with
  | [] => rw [step_of_nothing hi, step_of_nothing (h.input ▸ hi)]; exact matched_waitForHost h
  | .word w :: rest => rw [step_of_word hi, step_of_word (h.input ▸ hi)]; exact matched_consumeWord (h.with_input rest) he w
  | .rst :: rest => rw [step_of_rst hi, step_of_rst (h.input ▸ hi)]; exact .next (alike_applyReset (h.with_input rest))
  | .rstDuring w n :: rest =>
    rw [step_of_rstDuring hi, step_of_rstDuring (h.input ▸ hi)]
    exact matched_resetDuring (h.with_input rest) he w n
  | .take :: rest => rw [step_of_take hi, step_of_take (h.input ▸ hi)]; exact .next (alike_takeWord (h.with_input rest))

/-- Settles O60: the steps of two states alike are matched, event by event and command by command. -/
theorem unspecifiedStateIsUnobservable : Obligations.UnspecifiedStateIsUnobservable := by
  intro s t he h
  have hm := matched_step h he
  constructor
  · intro s' hs
    rw [hs] at hm
    generalize step t = b at hm
    cases hm with
    | next h' => exact ⟨_, rfl, h'⟩
  · intro f hs
    rw [hs] at hm
    generalize step t = b at hm
    cases hm
    rfl

end Sys2Proof.Machine
end

section
/-! PROOFS. The words of the two decoders and of the opcode map (O1 to O5), and the words of the assembler lines (O56). -/

namespace Sys2Proof.Machine

/-! The decoders and the encoders (R61, R62, R65). -/

/-- Settles O1: each clause is the law of one decoder with its encoder. -/
theorem decodeEncodeRoundTrip : Obligations.DecodeEncodeRoundTrip :=
  ⟨fun i _ => decode_encode i, fun _ _ => encode_of_decode, decodeData_encodeData, fun _ _ => encodeData_of_decodeData⟩

/-- Settles O5: closed words, one decoding each. -/
theorem specWordsDecode : Obligations.SpecWordsDecode := by
  unfold Obligations.SpecWordsDecode
  decide

/-! The legal words are the words that decode (R61, R62, R66). -/

theorem withOperand_isOk_iff {w : IoWord} {row : Byte → Instr} :
    (∃ i, withOperand w row = .ok i) ↔ fieldCZ w = 0 := by
  unfold withOperand
  split <;> simp_all

theorem withoutOperand_isOk_iff {w : IoWord} {row : Instr} :
    (∃ i, withoutOperand w row = .ok i) ↔ fieldCZ w = 0 ∧ fieldIMM8 w = 0 := by
  unfold withoutOperand
  split
  · simp_all
  · split <;> simp_all

/-- The field checks on a command word, `OPC` as a number. -/
theorem legalCommandWord_iff {w : IoWord} : legalCommandWord w = true ↔
    (1 ≤ (fieldOPC w).toNat ∧ (fieldOPC w).toNat ≤ 7) ∧ fieldCZ w = 0 ∧
    ((fieldOPC w).toNat ∈ [2, 4, 5, 7] → fieldIMM8 w = 0) := by
  have hopc : ∀ o : BitVec 4, fieldOPC w = o ↔ (fieldOPC w).toNat = o.toNat := fun o => BitVec.toNat_eq
  simp [legalCommandWord, opcAssigned, czIsZero, immZeroWhereRequired, and_assoc, imp_iff_not_or, hopc]

theorem legalCommandWord_iff_decode {w : IoWord} : legalCommandWord w = true ↔ ∃ i, decode w = .ok i := by
  rw [legalCommandWord_iff]
  unfold decode
  split <;> rename_i ho
  case h_1 | h_3 | h_6 => rw [withOperand_isOk_iff, ho]; simp
  case h_2 | h_4 | h_5 | h_7 => rw [withoutOperand_isOk_iff, ho]; simp
  case h_8 =>
    simp only [reduceCtorEq, exists_false, iff_false]
    rintro ⟨⟨h1, h7⟩, -⟩
    interval_cases (fieldOPC w).toNat <;> simp_all

theorem legalDataWord_iff {w : IoWord} : legalDataWord w = true ↔ fieldDZ w = 0 ∧ (fieldEOM w = true → fieldBYTE w = 0) := by
  simp [legalDataWord, dzIsZero, byteZeroAtEnd, imp_iff_not_or]

theorem legalDataWord_iff_decodeData {w : IoWord} : legalDataWord w = true ↔ ∃ d, decodeData w = .ok d := by
  rw [legalDataWord_iff]
  unfold decodeData
  split
  · simp_all
  · split
    · split <;> simp_all
    · simp_all

/-- Settles O4, one decoder after the other. -/
theorem decoderAcceptsLegalWords : Obligations.DecoderAcceptsLegalWords := fun _ =>
  ⟨legalCommandWord_iff_decode, legalDataWord_iff_decodeData⟩

/-! The opcode map (R65). -/

theorem fieldOPC_and_mask (w : IoWord) : fieldOPC (w &&& 0xFF00) = fieldOPC w := by
  rw [fieldOPC, BitVec.extractLsb'_and]
  exact BitVec.and_allOnes

theorem fieldCZ_and_mask (w : IoWord) : fieldCZ (w &&& 0xFF00) = fieldCZ w := by
  rw [fieldCZ, BitVec.extractLsb'_and]
  exact BitVec.and_allOnes

theorem fieldIMM8_and_mask (w : IoWord) : fieldIMM8 (w &&& 0xFF00) = 0 := by
  rw [fieldIMM8, BitVec.extractLsb'_and]
  exact BitVec.and_zero

/-- The row of an operation with an operand matches the command words of its opcode, whatever `IMM8` is. -/
theorem operandRow_accepts_iff {m : String} {p w : IoWord} {o : BitVec 4} (hp : p = commandWord o 0) :
    OpcodeRow.accepts ⟨m, p, 0xFF00⟩ w = true ↔ ∃ v, w = commandWord o v := by
  rw [OpcodeRow.accepts, beq_iff_eq, hp]
  constructor
  · intro h
    have ho : fieldOPC w = o := by rw [← fieldOPC_and_mask, h, fieldOPC_commandWord]
    have hcz : fieldCZ w = 0 := by rw [← fieldCZ_and_mask, h, fieldCZ_commandWord]
    exact ⟨fieldIMM8 w, by rw [← ho, commandWord_of_fields hcz]⟩
  · rintro ⟨v, rfl⟩
    have hcz := (fieldCZ_and_mask _).trans (fieldCZ_commandWord o v)
    rw [← commandWord_of_fields hcz, fieldOPC_and_mask, fieldIMM8_and_mask, fieldOPC_commandWord]

/-- The row of an operation without an operand matches one word. -/
theorem plainRow_accepts_iff {m : String} {p w : IoWord} {o : BitVec 4} (hp : p = commandWord o 0) :
    OpcodeRow.accepts ⟨m, p, 0xFFFF⟩ w = true ↔ w = commandWord o 0 := by
  rw [OpcodeRow.accepts, beq_iff_eq, hp, show w &&& 0xFFFF = w from BitVec.and_allOnes]

/-- A command is one of the seven. -/
theorem exists_instr_iff {P : Instr → Prop} : (∃ i, P i) ↔
    (∃ v, P (.reflect8 v)) ∨ P .crc8s ∨ (∃ q, P (.bldt q)) ∨ P .crc8t ∨ P .crc8sr ∨ (∃ q, P (.bldtr q)) ∨ P .crc8tr := by
  constructor
  · rintro ⟨i, h⟩
    cases i with
    | reflect8 v => exact .inl ⟨v, h⟩
    | crc8s => exact .inr (.inl h)
    | bldt q => exact .inr (.inr (.inl ⟨q, h⟩))
    | crc8t => exact .inr (.inr (.inr (.inl h)))
    | crc8sr => exact .inr (.inr (.inr (.inr (.inl h))))
    | bldtr q => exact .inr (.inr (.inr (.inr (.inr (.inl ⟨q, h⟩)))))
    | crc8tr => exact .inr (.inr (.inr (.inr (.inr (.inr h)))))
  · rintro (⟨v, h⟩ | h | ⟨q, h⟩ | h | h | ⟨q, h⟩ | h) <;> exact ⟨_, h⟩

/-- A row matches exactly the words that decode to an instruction of its mnemonic. -/
theorem accepts_iff_decode {r : OpcodeRow} (hr : r ∈ opcodeMap) {w : IoWord} :
    r.accepts w = true ↔ ∃ i, decode w = .ok i ∧ mnemonicOf i = r.mnemonic := by
  simp only [opcodeMap, List.mem_cons, List.not_mem_nil, or_false] at hr
  simp only [decode_eq_ok_iff, exists_instr_iff, encode]
  obtain rfl | rfl | rfl | rfl | rfl | rfl | rfl := hr
  · exact (operandRow_accepts_iff (o := 1) rfl).trans (by simp [mnemonicOf])
  · exact (plainRow_accepts_iff (o := 2) rfl).trans (by simp [mnemonicOf])
  · exact (operandRow_accepts_iff (o := 3) rfl).trans (by simp [mnemonicOf])
  · exact (plainRow_accepts_iff (o := 4) rfl).trans (by simp [mnemonicOf])
  · exact (plainRow_accepts_iff (o := 5) rfl).trans (by simp [mnemonicOf])
  · exact (operandRow_accepts_iff (o := 6) rfl).trans (by simp [mnemonicOf])
  · exact (plainRow_accepts_iff (o := 7) rfl).trans (by simp [mnemonicOf])

/-- Every instruction has a row. -/
theorem exists_row (i : Instr) : ∃ r ∈ opcodeMap, r.mnemonic = mnemonicOf i := by
  cases i <;> simp [opcodeMap, mnemonicOf]

/-- A mnemonic names one row. -/
theorem row_eq_of_mnemonic : ∀ r ∈ opcodeMap, ∀ r' ∈ opcodeMap, r.mnemonic = r'.mnemonic → r = r' := by
  decide

/-- Settles O2: two rows that match a word hold the mnemonic of the one instruction it decodes to. -/
theorem decodeFollowsOpcodeMap : Obligations.DecodeFollowsOpcodeMap := by
  intro w
  refine ⟨fun r hr r' hr' h h' => ?_, fun i hi => ?_, fun r hr => (accepts_iff_decode hr).1⟩
  · obtain ⟨i, hi, hm⟩ := (accepts_iff_decode hr).1 h
    obtain ⟨i', hi', hm'⟩ := (accepts_iff_decode hr').1 h'
    cases hi.symm.trans hi'
    exact row_eq_of_mnemonic r hr r' hr' (hm.symm.trans hm')
  · obtain ⟨r, hr, hm⟩ := exists_row i
    exact ⟨r, hr, (accepts_iff_decode hr).2 ⟨i, hi, hm.symm⟩, hm⟩

/-! The legal words, listed (R65; 95_test_vectors.md section 3.7). -/

theorem encode_injective : Function.Injective encode := fun i j h =>
  Except.ok.inj ((decode_encode i).symm.trans ((congrArg decode h).trans (decode_encode j)))

theorem encodeData_injective : Function.Injective encodeData := fun d e h =>
  Except.ok.inj ((decodeData_encodeData d).symm.trans ((congrArg decodeData h).trans (decodeData_encodeData e)))

/-- The 256 bytes. -/
def allBytes : List Byte := (List.finRange 256).map BitVec.ofFin

theorem mem_allBytes (b : Byte) : b ∈ allBytes :=
  List.mem_map.2 ⟨b.toFin, List.mem_finRange _, rfl⟩

theorem nodup_allBytes : allBytes.Nodup :=
  (List.nodup_finRange 256).map fun _ _ => congrArg BitVec.toFin

@[simp] theorem length_allBytes : allBytes.length = 256 := by simp [allBytes]

/-- Every command. -/
def allInstrs : List Instr :=
  allBytes.map .reflect8 ++ (allBytes.map .bldt ++ (allBytes.map .bldtr ++ [.crc8s, .crc8t, .crc8sr, .crc8tr]))

theorem mem_allInstrs (i : Instr) : i ∈ allInstrs := by
  cases i <;> simp [allInstrs, mem_allBytes]

theorem nodup_allInstrs : allInstrs.Nodup := by
  have hr := nodup_allBytes.map fun _ _ => Instr.reflect8.inj
  have hb := nodup_allBytes.map fun _ _ => Instr.bldt.inj
  have hbr := nodup_allBytes.map fun _ _ => Instr.bldtr.inj
  refine hr.append (hb.append (hbr.append (by decide) ?_) ?_) ?_ <;> simp [List.Disjoint]

/-- What the legal data words mean: the end of the message, or a byte. -/
def allDataWords : List DataWord := .endOfMessage :: allBytes.map .byte

theorem mem_allDataWords (d : DataWord) : d ∈ allDataWords := by
  cases d <;> simp [allDataWords, mem_allBytes]

theorem nodup_allDataWords : allDataWords.Nodup :=
  List.nodup_cons.2 ⟨by simp, nodup_allBytes.map fun _ _ => DataWord.byte.inj⟩

theorem toNat_fieldOPC (w : IoWord) : (fieldOPC w).toNat = w.toNat / 4096 % 16 := by
  simp [fieldOPC, BitVec.extractLsb'_toNat, Nat.shiftRight_eq_div_pow]

/-- An assigned `OPC` puts a bit in `DZ`. -/
theorem legalDataWord_of_legalCommandWord {w : IoWord} (h : legalCommandWord w = true) : legalDataWord w = false := by
  obtain ⟨⟨h1, h7⟩, -⟩ := legalCommandWord_iff.1 h
  rw [toNat_fieldOPC] at h1 h7
  rw [Bool.eq_false_iff, Ne, legalDataWord_iff]
  rintro ⟨hdz, -⟩
  have hDZ : w.toNat / 256 % 128 = 0 := by rw [← toNat_fieldDZ, hdz]; rfl
  omega

/-- Settles O3: the legal words are the encodings of the commands and of the data words, listed without repeats. -/
theorem legalWordCounts : Obligations.LegalWordCounts := by
  refine ⟨⟨allInstrs.map encode, nodup_allInstrs.map encode_injective, by simp [allInstrs], fun w => ?_⟩,
    ⟨allDataWords.map encodeData, nodup_allDataWords.map encodeData_injective, by simp [allDataWords], fun w => ?_⟩,
    fun w => legalDataWord_of_legalCommandWord⟩
  · simp only [legalCommandWord_iff_decode, decode_eq_ok_iff, List.mem_map, mem_allInstrs, true_and, eq_comm (a := w)]
  · simp only [legalDataWord_iff_decodeData, decodeData_eq_ok_iff, List.mem_map, mem_allDataWords, true_and, eq_comm (a := w)]

/-! The lines of a host program (R70, R71). -/

/-- `.byte` lines, one for each byte of a message, and `.eom` send what `.msg` sends. -/
theorem assemble_message (M : Message) : assemble (M.map .byte ++ [.eom]) = messageEvents M := by
  induction M with
  | nil => rfl
  | cons b M ih => exact congrArg (.word (encodeData (.byte b)) :: ·) ih

/-- Settles O56: the words are the encodings of the commands and of the data words, and the pseudo-instructions those of
their expansions. -/
theorem assemblerLinesExpand : Obligations.AssemblerLinesExpand := by
  refine ⟨fun v => ⟨rfl, rfl, rfl, by rw [setWidth_eq_byteWord]; rfl⟩, rfl, rfl, rfl, rfl, rfl, rfl, fun _ => rfl, rfl, rfl,
    fun M => (assemble_message M).symm, fun text => ?_, fun op M => ?_⟩
  · have h := assemble_message (text.map (·.setWidth 8))
    rw [List.map_map] at h
    exact h.symm
  · simp [assemble, AsmLine.events, checksumEvents]

end Sys2Proof.Machine
end

section
/-! PROOFS. The result words: their fields (O55), what a step appends to `OUT` (O43), and how `OUT` is cut (O54). -/

namespace Sys2Proof.Machine

/-! The fields of each shape of result word (R63). -/

/-- `RZ` stands where a command word has the lower half of `OPC`. -/
theorem fieldRZ_commandWord (o : BitVec 4) (v : Byte) : fieldRZ (commandWord o v) = o.setWidth 2 := by
  have h : fieldRZ (commandWord o v) = (fieldOPC (commandWord o v)).setWidth 2 := by
    ext i hi
    simp [fieldRZ, fieldOPC, show i < 4 by omega]
  rw [h, fieldOPC_commandWord]

@[simp] theorem fieldERR_lastWord (v : Byte) : fieldERR (lastWord v) = false := by simp [fieldERR, lastWord]
@[simp] theorem fieldLAST_lastWord (v : Byte) : fieldLAST (lastWord v) = true := by simp [fieldLAST, lastWord]
@[simp] theorem fieldRZ_lastWord (v : Byte) : fieldRZ (lastWord v) = 0 := fieldRZ_commandWord 4 v
@[simp] theorem fieldCODE_lastWord (v : Byte) : fieldCODE (lastWord v) = 0 := fieldCZ_commandWord 4 v
@[simp] theorem fieldDATA_lastWord (v : Byte) : fieldDATA (lastWord v) = v := fieldIMM8_commandWord 4 v

@[simp] theorem fieldERR_moreWord (v : Byte) : fieldERR (moreWord v) = false := by simp [fieldERR, moreWord]
@[simp] theorem fieldLAST_moreWord (v : Byte) : fieldLAST (moreWord v) = false := by simp [fieldLAST, moreWord]
@[simp] theorem fieldRZ_moreWord (v : Byte) : fieldRZ (moreWord v) = 0 := fieldRZ_commandWord 0 v
@[simp] theorem fieldCODE_moreWord (v : Byte) : fieldCODE (moreWord v) = 0 := fieldCZ_commandWord 0 v
@[simp] theorem fieldDATA_moreWord (v : Byte) : fieldDATA (moreWord v) = v := fieldIMM8_commandWord 0 v

@[simp] theorem fieldERR_faultWord (c : BitVec 4) : fieldERR (faultWord c) = true := by simp [fieldERR, faultWord]
@[simp] theorem fieldLAST_faultWord (c : BitVec 4) : fieldLAST (faultWord c) = true := by simp [fieldLAST, faultWord]
@[simp] theorem fieldRZ_faultWord (c : BitVec 4) : fieldRZ (faultWord c) = 0 := by revert c; decide
@[simp] theorem fieldCODE_faultWord (c : BitVec 4) : fieldCODE (faultWord c) = c := by revert c; decide
@[simp] theorem fieldDATA_faultWord (c : BitVec 4) : fieldDATA (faultWord c) = 0 := by revert c; decide

/-- Settles O55, by the fields R72 reads. -/
theorem hostReadsResultWords : Obligations.HostReadsResultWords := by
  simp [Obligations.HostReadsResultWords, readResult]

/-! The words the block emits (R63). -/

/-- The words the block emits: a byte with more to come, a last byte, or the report of a fault. -/
inductive IsResultWord : IoWord → Prop where
  | last (v : Byte) : IsResultWord (lastWord v)
  | more (v : Byte) : IsResultWord (moreWord v)
  | fault (k : FaultKind) : IsResultWord (faultWord (faultCode k))

theorem IsResultWord.shape {w : IoWord} (h : IsResultWord w) : ResultShape w := by
  cases h with
  | last v => simp [ResultShape]
  | more v => simp [ResultShape]
  | fault k => cases k <;> simp [ResultShape, faultCode]

theorem IsResultWord.literal {w : IoWord} (h : IsResultWord w) :
    (∃ v : Byte, w = (0x4000#16 ||| v.setWidth 16)) ∨ (∃ v : Byte, w = (0x0000#16 ||| v.setWidth 16)) ∨
    w = 0xC100 ∨ w = 0xC200 ∨ w = 0xC300 := by
  cases h with
  | last v => exact .inl ⟨v, rfl⟩
  | more v => exact .inr (.inl ⟨v, rfl⟩)
  | fault k => cases k <;> decide

theorem isResultWord_of_mem_tableWords {T : Table} {w : IoWord} (h : w ∈ tableWords T) : IsResultWord w := by
  simp only [tableWords, List.mem_append, List.mem_map, List.mem_singleton] at h
  obtain ⟨i, -, rfl⟩ | rfl := h
  · exact .more _
  · exact .last _

/-- `l'` is `l` and then words the block emits. -/
def AppendsResults (l l' : List IoWord) : Prop := ∃ ws, l' = l ++ ws ∧ ∀ w ∈ ws, IsResultWord w

theorem appendsResults_of_eq {l l' : List IoWord} (h : l' = l) : AppendsResults l l' := ⟨[], by simp [h], by simp⟩

theorem appendsResults_singleton (l : List IoWord) {w : IoWord} (hw : IsResultWord w) : AppendsResults l (l ++ [w]) :=
  ⟨[w], rfl, by simpa using hw⟩

theorem appendsResults_buildBank (b : BankId) (T : Table) (s : State) : AppendsResults s.out (buildBank b T s).out := by
  refine ⟨tableWords T, ?_, fun _ => isResultWord_of_mem_tableWords⟩
  cases b with
  | normal => rw [buildBank_normal]
  | reflected => rw [buildBank_reflected]

/-- The step on a word emits result words only. -/
theorem WordEffect.appendsResults {w : IoWord} {s t : State} (h : WordEffect w s t) : AppendsResults s.out t.out := by
  cases h with
  | reflected _ _ _ ht | ended _ _ ht => exact ht ▸ appendsResults_singleton _ (.last _)
  | builtNormal _ _ _ ht | builtReflected _ _ _ ht => exact ht ▸ appendsResults_buildBank _ _ s
  | started _ _ _ _ ht | byte _ _ _ ht => exact ht ▸ appendsResults_of_eq rfl
  | notBuilt _ _ _ _ ht | badCommand _ _ _ ht | badData _ _ _ ht => exact ht ▸ appendsResults_singleton _ (.fault _)

/-! What one step does to the `OUT` sequence (R64, R178, R186; log 7). -/

theorem outSequence_takeWord (s : State) : outSequence (takeWord s) = outSequence s := by
  cases h : s.out with
  | nil => rw [takeWord_nil s h]
  | cons w ws => simp [takeWord_cons s w ws h, outSequence, h]

theorem WordEffect.outSequence_grows {w : IoWord} {s t : State} (h : WordEffect w s t) :
    AppendsResults (outSequence s) (outSequence t) := by
  obtain ⟨ws, hout, hws⟩ := h.appendsResults
  exact ⟨ws, by rw [outSequence, outSequence, h.appendsToOut.taken, hout, List.append_assoc], hws⟩

/-- A reset inside a step lets only the first of the step's words leave. -/
theorem outSequence_grows_of_resetDuring {w : IoWord} {n : Nat} {s t : State} (h : resetDuring w n s = .next t) :
    AppendsResults (outSequence s) (outSequence t) := by
  obtain ⟨u, hu, rfl⟩ | ⟨-, rfl⟩ := resetDuring_next h
  · obtain ⟨ws, hout, hws⟩ := (consumeWord_effect hu).appendsResults
    refine ⟨u.out.take n, (List.append_assoc _ _ _).symm, fun x hx => hws x ?_⟩
    rw [hout] at hx
    exact List.mem_of_mem_take hx
  · exact appendsResults_of_eq rfl

theorem outSequence_grows_of_step {s t : State} (h : step s = .next t) :
    AppendsResults (outSequence s) (outSequence t) := by
  obtain ⟨-, -, rfl⟩ | ⟨w, rest, -, hw⟩ | ⟨rest, -, rfl⟩ | ⟨w, n, rest, -, hr⟩ | ⟨rest, -, rfl⟩ := step_next h
  · exact appendsResults_of_eq rfl
  · exact (consumeWord_effect hw).outSequence_grows
  · exact appendsResults_of_eq rfl
  · exact outSequence_grows_of_resetDuring (s := { s with input := rest }) hr
  · exact appendsResults_of_eq (outSequence_takeWord _)

/-- Settles O43: the words a step appends are words the block emits, and those have the shapes of format R. -/
theorem outGrowsByResultWords : Obligations.OutGrowsByResultWords := by
  intro s t hs
  obtain ⟨ws, hout, hws⟩ := outSequence_grows_of_step hs
  exact ⟨ws, hout, fun w hw => ⟨(hws w hw).shape, (hws w hw).literal⟩⟩

/-! Cutting `OUT` into results (R64). -/

/-- The words of one result: `LAST = 1` on its last word and on no other. -/
def IsResult (r : List IoWord) : Prop :=
  ∃ init w, r = init ++ [w] ∧ (∀ x ∈ init, fieldLAST x = false) ∧ fieldLAST w = true

theorem isResult_lastWord (v : Byte) : IsResult [lastWord v] := ⟨[], _, rfl, by simp, by simp⟩

theorem isResult_tableWords (T : Table) : IsResult (tableWords T) := by
  unfold tableWords
  exact ⟨_, _, rfl, by simp, by simp⟩

theorem isResult_of_words {o : Operation} {p : Builds} {ws : List IoWord} (h : o.words p = some ws) : IsResult ws := by
  cases o with
  | reflect v => cases h; exact isResult_lastWord _
  | build b q => cases b <;> cases h <;> exact isResult_tableWords _
  | checksum op M =>
    cases op with
    | crc8s | crc8sr => cases h; exact isResult_lastWord _
    | crc8t | crc8tr => obtain ⟨q, -, rfl⟩ := Option.map_eq_some_iff.1 h; exact isResult_lastWord _

/-- A session has one result for each operation. -/
theorem isResult_of_session {os : List Operation} {p : Builds} {rs : List (List IoWord)} (h : sessionResults os p = some rs) :
    (∀ r ∈ rs, IsResult r) ∧ rs.length = os.length := by
  induction os generalizing p rs with
  | nil => cases h; simp
  | cons o os ih =>
    obtain ⟨ws, rs', hw, hrs, rfl⟩ := sessionResults_cons h
    obtain ⟨hres, hlen⟩ := ih hrs
    exact ⟨List.forall_mem_cons.2 ⟨isResult_of_words hw, hres⟩, congrArg (· + 1) hlen⟩

/-- Words with `LAST = 0` are held until the next cut. -/
theorem cutResultsFrom_append {init : List IoWord} (h : ∀ x ∈ init, fieldLAST x = false) (held rest : List IoWord) :
    cutResultsFrom held (init ++ rest) = cutResultsFrom (held ++ init) rest := by
  induction init generalizing held with
  | nil => simp
  | cons x init ih =>
    obtain ⟨hx, hinit⟩ := List.forall_mem_cons.1 h
    simp [cutResultsFrom, hx, ih hinit]

theorem cutResults_append {r : List IoWord} (h : IsResult r) (rest : List IoWord) :
    cutResults (r ++ rest) = r :: cutResults rest := by
  obtain ⟨init, w, rfl, hinit, hw⟩ := h
  simp [cutResults, cutResultsFrom_append hinit, cutResultsFrom, hw]

theorem cutResults_flatten {rs : List (List IoWord)} (h : ∀ r ∈ rs, IsResult r) : cutResults rs.flatten = rs := by
  induction rs with
  | nil => rfl
  | cons r rs ih =>
    obtain ⟨hr, hrs⟩ := List.forall_mem_cons.1 h
    rw [List.flatten_cons, cutResults_append hr, ih hrs]

/-- Settles O54: each operation returns one result, and a cut after each result gives the results back. -/
theorem resultsAreCutAtLast : Obligations.ResultsAreCutAtLast := by
  intro os p rs h
  obtain ⟨hres, hlen⟩ := isResult_of_session h
  exact ⟨cutResults_flatten hres, hlen⟩

end Sys2Proof.Machine
end

section
/-! PROOFS. The function of the bit reflector (O7, O8), its command (O30), and what it and the four checksum commands leave
unchanged (O37). -/

namespace Sys2Proof.Machine

/-! The reflector, bit by bit (R80). -/

/-- The width is written as the sum of the eight parts, so that `getLsbD_append` finds them. -/
theorem getLsbD_reflect8 (b : Byte) {i : Nat} (hi : i ≤ 7) : (reflect8 b).getLsbD i = b.getLsbD (7 - i) := by
  change BitVec.getLsbD (w := 1 + 1 + 1 + 1 + 1 + 1 + 1 + 1) (_ ++ _) i = _
  simp only [BitVec.getLsbD_append]
  interval_cases i <;> simp

/-- Settles O7: the bits as R80 writes them out. -/
theorem reflectorReversesBits : Obligations.ReflectorReversesBits := fun b _ => getLsbD_reflect8 b

/-! The laws of the reflector (R82), each by comparing bit `i` of the two sides. -/

theorem byte_ext {a b : Byte} (h : ∀ i, i ≤ 7 → a.getLsbD i = b.getLsbD i) : a = b :=
  BitVec.eq_of_getLsbD_eq fun i hi => h i (Nat.le_of_lt_succ hi)

@[simp] theorem reflect8_reflect8 (b : Byte) : reflect8 (reflect8 b) = b :=
  byte_ext fun i hi => by rw [getLsbD_reflect8 _ hi, getLsbD_reflect8 _ (Nat.sub_le 7 i), Nat.sub_sub_self hi]

theorem reflect8_xor (a b : Byte) : reflect8 (a ^^^ b) = reflect8 a ^^^ reflect8 b :=
  byte_ext fun i hi => by simp only [BitVec.getLsbD_xor, getLsbD_reflect8 _ hi]

/-- At `i = 7` both sides hold the 0 that is shifted in. -/
theorem reflect8_shl1 (a : Byte) : reflect8 (shl1 a) = shr1 (reflect8 a) := by
  refine byte_ext fun i hi => ?_
  rw [getLsbD_reflect8 _ hi, getLsbD_shr1]
  obtain rfl | hlt := Nat.eq_or_lt_of_le hi
  · rw [getLsbD_shl1_zero, BitVec.getLsbD_of_ge _ _ (by decide)]
  · rw [getLsbD_shl1_of_pos _ (by omega) (by omega), getLsbD_reflect8 _ hlt, Nat.sub_sub]

/-- The mirror image of `reflect8_shl1`. -/
theorem reflect8_shr1 (a : Byte) : reflect8 (shr1 a) = shl1 (reflect8 a) := by
  rw [← reflect8_reflect8 (shl1 _), reflect8_shl1, reflect8_reflect8]

/-- The palindrome with the bits of `n` in its lower half. -/
def palindrome (n : BitVec 4) : Byte := n.setWidth 8 ||| reflect8 (n.setWidth 8)

/-- A fixed point is determined by its lower half. -/
theorem palindrome_setWidth {b : Byte} (h : reflect8 b = b) : palindrome (b.setWidth 4) = b := by
  refine byte_ext fun i hi => ?_
  have hb : b.getLsbD (7 - i) = b.getLsbD i := by rw [← getLsbD_reflect8 b hi, h]
  rw [palindrome, BitVec.getLsbD_or, getLsbD_reflect8 _ hi]
  obtain h4 | h4 : i < 4 ∨ 7 - i < 4 := by omega
  · simp [h4, show ¬ 7 - i < 4 by omega, show i < 8 by omega]
  · simpa [h4, show ¬ i < 4 by omega, show 7 - i < 8 by omega] using hb

/-- The sixteen fixed points, one for each lower half. -/
theorem reflect8_eq_self_iff (b : Byte) : reflect8 b = b ↔
    b ∈ [(0x00 : Byte), 0x18, 0x24, 0x3C, 0x42, 0x5A, 0x66, 0x7E, 0x81, 0x99, 0xA5, 0xBD, 0xC3, 0xDB, 0xE7, 0xFF] := by
  constructor
  · intro h
    rw [← palindrome_setWidth h]
    generalize b.setWidth 4 = n
    revert n
    decide
  · revert b
    decide

/-- Settles O8, law by law. -/
theorem reflectorLaws : Obligations.ReflectorLaws :=
  ⟨reflect8_reflect8, ⟨reflect8_xor, by decide⟩, fun a => ⟨reflect8_shl1 a, reflect8_shr1 a⟩,
    fun a => ⟨(getLsbD_reflect8 a (i := 0) (by decide)).symm, (getLsbD_reflect8 a (i := 7) (by decide)).symm⟩,
    reflect8_eq_self_iff, by decide⟩

/-! A word that is illegal in its phase (R66), and a command word outside `IDLE` (R166, R192). -/

theorem step_of_illegalCommand {s : State} {w : IoWord} {rest : List HostEvent} (hp : s.phase = .idle)
    (hi : s.input = .word w :: rest) (hw : legalCommandWord w = false) :
    step s = .next (faulted 1 { s with input := rest }) := by
  rw [step_of_command hp hi]
  cases hd : decode w with
  | ok i => simp [legalCommandWord_iff_decode.2 ⟨i, hd⟩] at hw
  | error e => exact commandStep_error hd _

theorem step_of_illegalData {s : State} {w : IoWord} {rest : List HostEvent} (hp : s.phase = .msg)
    (hi : s.input = .word w :: rest) (hw : legalDataWord w = false) :
    step s = .next (faulted 2 { s with input := rest }) := by
  rw [step_of_data hp hi]
  cases hd : decodeData w with
  | ok d => simp [legalDataWord_iff_decodeData.2 ⟨d, hd⟩] at hw
  | error e => exact dataStep_error hd _

theorem legalDataWord_encode (i : Instr) : legalDataWord (encode i) = false :=
  legalDataWord_of_legalCommandWord (legalCommandWord_iff_decode.2 ⟨i, decode_encode i⟩)

theorem step_of_offer_outside_idle {s : State} {i : Instr} {rest : List HostEvent} (hp : s.phase ≠ .idle)
    (hi : s.input = offer i :: rest) :
    step s = if s.phase = .msg then .next (faulted 2 { s with input := rest }) else .fault .stuckInFaultPhase := by
  cases hphase : s.phase with
  | idle => exact absurd hphase hp
  | msg => exact step_of_illegalData hphase hi (legalDataWord_encode i)
  | fault => exact (step_of_word hi).trans (consumeWord_fault (s := { s with input := rest }) hphase _)

theorem legalCommandWord_of_nonzeroCZ {w : IoWord} (h : fieldCZ w ≠ 0) : legalCommandWord w = false := by
  refine Bool.eq_false_iff.2 fun hw => ?_
  obtain ⟨_, hcz, _⟩ := legalCommandWord_iff.1 hw
  exact h hcz

/-! The command (R81). -/

/-- Settles O30: the accepted command, its word as the host encodes it, and the two phases' faults. -/
theorem reflect8FollowsItsRule : Obligations.Reflect8FollowsItsRule :=
  ⟨fun _ v hp => exec_reflect8_idle hp v,
    fun s v rest hp hi => (step_of_offer (i := .reflect8 v) hp hi).trans (exec_reflect8_idle (s := { s with input := rest }) hp v),
    fun _ _ _ hp hi _ hcz => step_of_illegalCommand hp hi (legalCommandWord_of_nonzeroCZ hcz),
    fun _ v _ hp hi => step_of_offer_outside_idle (i := .reflect8 v) hp hi⟩

/-! The commands that build nothing (R81, R93, R103, R118, R128). -/

/-- REFLECT8 and the checksum commands: everything they can answer, from any phase. -/
theorem exec_next_of_no_build {i : Instr} {s t : State}
    (hi : (∃ v, i = .reflect8 v) ∨ i = .crc8s ∨ i = .crc8t ∨ i = .crc8sr ∨ i = .crc8tr) (h : exec i s = .next t) :
    (∃ v, i = .reflect8 v ∧ s.phase = .idle ∧ t = emit (lastWord (reflect8 v)) s) ∨
    (∃ op, i = checksumCommand op ∧ t = startMessage op s) ∨
    (∃ k, t = raiseFault k s) := by
  have hrow : (∃ v, i = .reflect8 v) ∨ ∃ op, i = checksumCommand op := hi.imp_right <| by
    rintro (rfl | rfl | rfl | rfl)
    exacts [⟨.crc8s, rfl⟩, ⟨.crc8t, rfl⟩, ⟨.crc8sr, rfl⟩, ⟨.crc8tr, rfl⟩]
  obtain ⟨v, rfl⟩ | ⟨op, rfl⟩ := hrow
  · obtain ⟨hp, ha⟩ | ⟨_, ht⟩ := whenIdle_next h
    · cases ha; exact .inl ⟨v, rfl, hp, rfl⟩
    · exact .inr (.inr ⟨_, ht⟩)
  · obtain ⟨_, _, ht⟩ | ⟨_, _, ht⟩ | ⟨_, ht⟩ := beginChecksum_next ((exec_checksumCommand op s).symm.trans h)
    · exact .inr (.inl ⟨op, rfl, ht⟩)
    · exact .inr (.inr ⟨_, ht⟩)
    · exact .inr (.inr ⟨_, ht⟩)

/-- Settles O37: each of the three effects writes no bank, no flag and no port but `OUT`. -/
theorem frameOfReflectAndChecksumCommands : Obligations.FrameOfReflectAndChecksumCommands := by
  intro i s t hi h
  obtain ⟨v, rfl, hp, rfl⟩ | ⟨op, rfl, rfl⟩ | ⟨k, rfl⟩ := exec_next_of_no_build hi h
  · exact ⟨fun _ _ => rfl, rfl, rfl, rfl, rfl, rfl, rfl, rfl, ⟨_, rfl⟩, fun _ => ⟨rfl, rfl⟩, fun _ => rfl, fun _ => ⟨rfl, rfl⟩⟩
  · have hne : ¬ ∃ v, checksumCommand op = .reflect8 v := by cases op <;> simp [checksumCommand]
    exact ⟨fun _ _ => rfl, rfl, rfl, rfl, rfl, rfl, rfl, rfl, ⟨[], by simp⟩, fun hv => absurd hv hne, fun _ => rfl,
      fun hf => by simp at hf⟩
  · exact ⟨fun _ _ => rfl, rfl, rfl, rfl, rfl, rfl, rfl, rfl, ⟨_, rfl⟩, fun _ => ⟨rfl, rfl⟩, fun hf => absurd rfl hf,
      fun _ => ⟨rfl, rfl⟩⟩

end Sys2Proof.Machine
end

section
/-! PROOFS. The rounds and the byte step of both conventions (O9, O10, O13), the normal checksum as a linear function (O14), and
the command CRC8S: its rule (O31) and its run over a message (O45). -/

namespace Sys2Proof.Machine

/-! A round, bit by bit (R90, R115): the shifted byte, XORed with the polynomial when the discarded bit was set. -/

theorem getLsbD_roundN (a q : Byte) (i : Nat) :
    (roundN a q).getLsbD i = ((shl1 a).getLsbD i ^^ (a.getLsbD 7 && q.getLsbD i)) := by
  rw [roundN, ← BitVec.getLsbD_eq_getElem]
  cases a.getLsbD 7 <;> simp

theorem getLsbD_roundR (a q : Byte) (i : Nat) :
    (roundR a q).getLsbD i = ((shr1 a).getLsbD i ^^ (a.getLsbD 0 && q.getLsbD i)) := by
  rw [roundR, ← BitVec.getLsbD_eq_getElem]
  cases a.getLsbD 0 <;> simp

theorem getLsbD_roundN_zero (a q : Byte) : (roundN a q).getLsbD 0 = (a.getLsbD 7 && q.getLsbD 0) := by
  rw [getLsbD_roundN, getLsbD_shl1_zero, Bool.false_xor]

theorem getLsbD_roundN_of_pos (a q : Byte) {i : Nat} (h1 : 1 ≤ i) (h7 : i ≤ 7) :
    (roundN a q).getLsbD i = (a.getLsbD (i - 1) ^^ (a.getLsbD 7 && q.getLsbD i)) := by
  rw [getLsbD_roundN, getLsbD_shl1_of_pos a h1 h7]

theorem getLsbD_roundR_seven (a q : Byte) : (roundR a q).getLsbD 7 = (a.getLsbD 0 && q.getLsbD 7) := by
  rw [getLsbD_roundR, getLsbD_shr1, BitVec.getLsbD_of_ge a 8 (by decide), Bool.false_xor]

/-- Settles O9: the bit that is shifted in is 0, every other bit is its neighbour's. -/
theorem roundsBitByBit : Obligations.RoundsBitByBit := fun a q =>
  ⟨getLsbD_roundN_zero a q, fun _ => getLsbD_roundN_of_pos a q, getLsbD_roundR_seven a q,
    fun i _ => by rw [getLsbD_roundR, getLsbD_shr1]⟩

/-! A byte step is an iterate of its round (R91, R116). -/

theorem rounds_eq_iterate (f : Byte → Byte) (k : Nat) : rounds f k = f^[k] := by
  induction k with
  | zero => rfl
  | succ k ih =>
    funext a
    rw [rounds, ih, Function.iterate_succ_apply']

theorem byteN_eq_iterate (a q : Byte) : byteN a q = (fun x => roundN x q)^[8] a := by
  rw [byteN, rounds_eq_iterate]

theorem byteR_eq_iterate (a q : Byte) : byteR a q = (fun x => roundR x q)^[8] a := by
  rw [byteR, rounds_eq_iterate]

@[simp] theorem roundN_zero (q : Byte) : roundN 0x00 q = 0x00 := by
  simp [roundN, shl1]

@[simp] theorem byteN_zero (q : Byte) : byteN 0x00 q = 0x00 := by
  rw [byteN_eq_iterate]
  exact Function.iterate_fixed (roundN_zero q) 8

/-- Seven rounds move the one bit to the top without meeting the polynomial; the eighth discards it. -/
theorem byteN_one (q : Byte) : byteN 0x01 q = q := by
  have hseven : rounds (fun x => roundN x q) 7 0x01 = 0x80 := by simp [rounds, roundN, shl1]
  have hlast : roundN 0x80 q = q := by simp [roundN, shl1]
  rw [byteN, rounds, hseven, hlast]

/-! The mirror of the reflector between the two conventions (R142, R143). -/

theorem roundR_reflect8 (a q : Byte) : roundR (reflect8 a) (reflect8 q) = reflect8 (roundN a q) := by
  have hbit : (reflect8 a)[0] = a[7] := getLsbD_reflect8 a (i := 0) (by decide)
  rw [roundR, roundN, hbit, ← reflect8_shl1, ← reflect8_xor]
  exact (apply_ite reflect8 _ _ _).symm

theorem byteR_reflect8 (a q : Byte) : byteR (reflect8 a) (reflect8 q) = reflect8 (byteN a q) := by
  have hround : Function.Semiconj reflect8 (fun x => roundN x q) (fun x => roundR x (reflect8 q)) :=
    fun x => (roundR_reflect8 x q).symm
  rw [byteR_eq_iterate, byteN_eq_iterate]
  exact (hround.iterate_right 8 a).symm

/-- The reflected byte step by the normal one. -/
theorem byteR_eq_mirror (a q : Byte) : byteR a q = reflect8 (byteN (reflect8 a) (reflect8 q)) := by
  rw [← byteR_reflect8, reflect8_reflect8, reflect8_reflect8]

@[simp] theorem byteR_zero (q : Byte) : byteR 0x00 q = 0x00 := by
  have h0 : reflect8 0x00 = 0x00 := by decide
  rw [byteR_eq_mirror, h0, byteN_zero, h0]

theorem byteR_top (q : Byte) : byteR 0x80 q = q := by
  have h80 : reflect8 0x80 = 0x01 := by decide
  rw [byteR_eq_mirror, h80, byteN_one, reflect8_reflect8]

/-- Settles O10: the eight rounds are the definition's; the reflected values are the mirror of the normal ones. -/
theorem byteStepIsEightRounds : Obligations.ByteStepIsEightRounds := fun _ q =>
  ⟨rfl, rfl, byteN_zero q, byteN_one q, byteR_zero q, byteR_top q⟩

/-! The byte step is invertible when the polynomial has the bit that enters (R90, R91). -/

/-- Bit 0 of the result shows the bit that was discarded, so the polynomial can be taken back. -/
theorem roundN_injective {q : Byte} (hq : q.getLsbD 0 = true) : Function.Injective (fun a => roundN a q) := by
  intro a b (h : roundN a q = roundN b q)
  have htop : a.getLsbD 7 = b.getLsbD 7 := by
    have hbit : (roundN a q).getLsbD 0 = (roundN b q).getLsbD 0 := by rw [h]
    simpa only [getLsbD_roundN_zero, hq, Bool.and_true] using hbit
  refine byte_ext fun i hi => ?_
  obtain rfl | hlt := Nat.eq_or_lt_of_le hi
  · exact htop
  · have hbit : (roundN a q).getLsbD (i + 1) = (roundN b q).getLsbD (i + 1) := by rw [h]
    rwa [getLsbD_roundN_of_pos a q (Nat.succ_pos i) hlt, getLsbD_roundN_of_pos b q (Nat.succ_pos i) hlt, htop,
      Bool.xor_left_inj] at hbit

theorem byteN_injective {q : Byte} (hq : q.getLsbD 0 = true) : Function.Injective (fun a => byteN a q) := by
  simp only [byteN_eq_iterate]
  exact (roundN_injective hq).iterate 8

theorem reflect8_injective : Function.Injective reflect8 := Function.LeftInverse.injective reflect8_reflect8

theorem byteR_injective {q : Byte} (hq : q.getLsbD 7 = true) : Function.Injective (fun a => byteR a q) := by
  have hentering : (reflect8 q).getLsbD 0 = true := (getLsbD_reflect8 q (i := 0) (by decide)).trans hq
  simp only [byteR_eq_mirror]
  exact reflect8_injective.comp ((byteN_injective hentering).comp reflect8_injective)

/-- Settles O13: a round can be undone, and the reflected byte step is the mirror of the normal one. -/
theorem byteStepIsInvertible : Obligations.ByteStepIsInvertible :=
  ⟨fun _ hq _ _ h => byteN_injective hq h, fun _ hq _ _ h => byteR_injective hq h⟩

/-! The normal checksum is linear over XOR (R96). -/

theorem roundN_xor (a b q : Byte) : roundN (a ^^^ b) q = roundN a q ^^^ roundN b q := by
  have hshift : shl1 (a ^^^ b) = shl1 a ^^^ shl1 b := BitVec.shiftLeft_xor_distrib a b 1
  refine byte_ext fun i _ => ?_
  simp only [getLsbD_roundN, hshift, BitVec.getLsbD_xor, Bool.and_xor_distrib_right, Bool.xor_assoc, Bool.xor_left_comm]

theorem byteN_xor (a b q : Byte) : byteN (a ^^^ b) q = byteN a q ^^^ byteN b q := by
  have hround : Function.Semiconj₂ (fun x => roundN x q) (· ^^^ ·) (· ^^^ ·) := fun x y => roundN_xor x y q
  simp only [byteN_eq_iterate]
  exact hround.iterate 8 a b

/-- A fold whose step is linear in the accumulator and the byte together is linear in the whole message. -/
theorem foldl_zipWith_xor {f : Byte → Byte → Byte} (hf : ∀ a b x y, f (a ^^^ b) (x ^^^ y) = f a x ^^^ f b y)
    {A B : Message} (h : A.length = B.length) (a b : Byte) :
    (List.zipWith (fun x y => x ^^^ y) A B).foldl f (a ^^^ b) = A.foldl f a ^^^ B.foldl f b := by
  induction A generalizing B a b with
  | nil =>
    cases List.length_eq_zero_iff.1 h.symm
    rfl
  | cons x A ih =>
    obtain ⟨y, B, rfl⟩ := List.exists_cons_of_length_eq_add_one h.symm
    rw [List.zipWith_cons_cons, List.foldl_cons, List.foldl_cons, List.foldl_cons, hf]
    exact ih (Nat.succ.inj h) _ _

theorem crc8SeqUnder_xor (q : Byte) {A B : Message} (h : A.length = B.length) :
    crc8SeqUnder q (List.zipWith (fun a b => a ^^^ b) A B) = crc8SeqUnder q A ^^^ crc8SeqUnder q B := by
  refine foldl_zipWith_xor (fun a b x y => ?_) h Config.INIT Config.INIT
  rw [← byteN_xor]
  congr 1
  ac_rfl

theorem crc8SeqUnder_zero_cons (q : Byte) (M : Message) : crc8SeqUnder q (0x00 :: M) = crc8SeqUnder q M := by
  have hfirst : byteN (Config.INIT ^^^ 0x00) q = Config.INIT := byteN_zero q
  rw [crc8SeqUnder, List.foldl_cons, hfirst, crc8SeqUnder]

/-- The last byte step starts from the checksum XORed with itself. -/
theorem crc8SeqUnder_append_self (q : Byte) (M : Message) : crc8SeqUnder q (M ++ [crc8SeqUnder q M]) = 0x00 := by
  have hlast : crc8SeqUnder q (M ++ [crc8SeqUnder q M]) = byteN (crc8SeqUnder q M ^^^ crc8SeqUnder q M) q :=
    List.foldl_concat ..
  rw [hlast, BitVec.xor_self]
  exact byteN_zero q

/-- Settles O14: each law holds under every polynomial, and so under `POLY`. -/
theorem checksumIsLinear : Obligations.ChecksumIsLinear :=
  ⟨fun _ _ h => crc8SeqUnder_xor Config.POLY h, crc8SeqUnder_zero_cons Config.POLY, crc8SeqUnder_append_self Config.POLY⟩

/-! The three kinds of step of a checksum command, for all four engines (R93, R103, R118, R128). -/

theorem step_of_checksumCommand {op : ChecksumOp} {s : State} {rest : List HostEvent} (hp : s.phase = .idle)
    (hr : tableReady op s = true) (hi : s.input = offer (checksumCommand op) :: rest) :
    step s = .next { s with input := rest, acc := Config.INIT, op := op, phase := .msg } := by
  rw [step_of_offer hp hi, exec_checksumCommand]
  exact beginChecksum_ready hp hr

theorem step_of_messageByte {b : Byte} {s : State} {rest : List HostEvent} (hp : s.phase = .msg)
    (hi : s.input = .word (encodeData (.byte b)) :: rest) :
    step s = .next { s with input := rest, acc := accAfterByte b s } :=
  step_of_dataWord hp hi

theorem step_of_messageEnd {s : State} {rest : List HostEvent} (hp : s.phase = .msg)
    (hi : s.input = .word (encodeData .endOfMessage) :: rest) :
    step s = .next { s with
      input := rest, phase := .idle, out := s.out ++ [lastWord (checksumResult s.op s)] } :=
  step_of_dataWord hp hi

/-- The words `CZ` or `IMM8` makes illegal on an operation without an operand (R61). -/
theorem legalCommandWord_of_nonzero_without_operand {w : IoWord} (ho : (fieldOPC w).toNat ∈ [2, 4, 5, 7])
    (h : fieldCZ w ≠ 0 ∨ fieldIMM8 w ≠ 0) : legalCommandWord w = false := by
  refine Bool.eq_false_iff.2 fun hw => ?_
  obtain ⟨_, hcz, himm⟩ := legalCommandWord_iff.1 hw
  exact h.elim (· hcz) (· (himm ho))

theorem legalDataWord_of_badDataFields {w : IoWord} (h : BadDataFields w) : legalDataWord w = false := by
  refine Bool.eq_false_iff.2 fun hw => ?_
  obtain ⟨hdz, hbyte⟩ := legalDataWord_iff.1 hw
  exact h.elim (· hdz) fun ⟨heom, hne⟩ => hne (hbyte heom)

/-! CRC8S (R93). -/

theorem accAfterByte_crc8s {s : State} (hop : s.op = .crc8s) (b : Byte) :
    accAfterByte b s = byteN (s.acc ^^^ b) Config.POLY := by
  simp only [accAfterByte, hop]
  rfl

theorem checksumResult_crc8s (s : State) : checksumResult .crc8s s = s.acc := rfl

/-- Settles O31: the three kinds of step, a bad command word, a bad data word, and the command word outside `IDLE`. -/
theorem crc8sFollowsItsRule : Obligations.Crc8sFollowsItsRule := by
  refine ⟨fun s hp => beginChecksum_ready hp (tableReady_crc8s s),
    fun s rest hp hi => step_of_checksumCommand (op := .crc8s) hp (tableReady_crc8s s) hi,
    fun s b rest hp hop hi => ?byte, fun s rest hp hop hi => ?finish,
    fun s w rest hp hi hopc hbad => step_of_illegalCommand hp hi (legalCommandWord_of_nonzero_without_operand ?_ hbad),
    fun s w rest hp _ hi hbad => step_of_illegalData hp hi (legalDataWord_of_badDataFields hbad),
    fun s rest hp hi => step_of_offer_outside_idle (i := .crc8s) hp hi⟩
  case byte => rw [step_of_messageByte hp hi, accAfterByte_crc8s hop]
  case finish =>
    rw [step_of_messageEnd hp hi, hop, checksumResult_crc8s]
    rfl
  · rw [hopc]
    decide

/-! The loop invariant of a run over a message, for all four engines (R95, R104, R119). -/

theorem length_checksumEvents (op : ChecksumOp) (M : Message) : (checksumEvents op M).length = M.length + 2 := by
  simp [checksumEvents, messageEvents]

/-- After the command word and the first `k` bytes `ACC` is that of those bytes. -/
theorem runSteps_firstBytes {op : ChecksumOp} {M : Message} {s : State} {rest : List HostEvent} (hp : s.phase = .idle)
    (hr : tableReady op s = true) (hi : s.input = checksumEvents op M ++ rest) {k : Nat} (hk : k ≤ M.length) :
    ∃ t, runSteps (k + 1) s = .next t ∧ t.phase = .msg ∧ t.acc = accAfterMessage (M.take k) (startMessage op s) := by
  have hsplit : messageEvents M ++ rest = (M.take k).map (fun b => .word (encodeData (.byte b))) ++
      (messageEvents (M.drop k) ++ rest) := by
    rw [messageEvents, messageEvents, ← List.append_assoc, ← List.append_assoc, ← List.map_append, List.take_append_drop]
  have hbytes := runSteps_messageBytes (M.take k) (s := startMessage op { s with input := messageEvents M ++ rest }) rfl hsplit
  rw [List.length_take_of_le hk] at hbytes
  rw [runSteps_of_step (step_of_checksumCommand hp hr hi)]
  exact ⟨_, hbytes, rfl, rfl⟩

/-- The loop invariant of CRC8S: the fold of its byte step is the checksum. -/
theorem accAfterMessage_crc8s (M : Message) (s : State) : accAfterMessage M (startMessage .crc8s s) = crc8SeqN M := rfl

/-- Settles O45: the run of a whole message, and the loop invariant after `k` of its bytes. -/
theorem crc8sRunComputesChecksum : Obligations.Crc8sRunComputesChecksum := by
  intro s M rest hp hi
  have hinput : s.input = checksumEvents .crc8s M ++ rest := hi
  constructor
  · rw [← length_checksumEvents .crc8s M, runSteps_checksumEvents hp (tableReady_crc8s s) hinput, accAfterMessage_crc8s]
    rfl
  · intro k hk
    rw [← accAfterMessage_crc8s _ s]
    exact runSteps_firstBytes hp (tableReady_crc8s s) hinput hk

end Sys2Proof.Machine
end

section
/-! PROOFS. The functions of the two table engines against the sequential ones (O15, O16), and the commands of the normal
table: the rules of BLDT (O32) and CRC8T (O33), and their runs (O46). -/

namespace Sys2Proof.Machine

/-! A table engine with the table of `q` takes the byte step under `q` (R105, R131). -/

theorem crc8Tbl_tableN (q : Byte) (M : Message) : crc8Tbl M (tableN q) = crc8SeqUnder q M := rfl

theorem crc8TblR_tableR (q : Byte) (M : Message) : crc8TblR M (tableR q) = crc8SeqUnderR q M := rfl

/-- The reflected accumulator is the mirror of the normal one, byte after byte. -/
theorem accSeqUnderR_eq_mirror (q : Byte) (M : Message) :
    accSeqUnderR q M = reflect8 (crc8SeqUnder (reflect8 q) M) := by
  have hbyte (acc b : Byte) : byteR (reflect8 acc ^^^ reflect8 b) q = reflect8 (byteN (acc ^^^ b) (reflect8 q)) := by
    rw [← reflect8_xor, byteR_eq_mirror, reflect8_reflect8]
  have hinit : Config.INIT = reflect8 Config.INIT := by decide
  rw [accSeqUnderR, crc8SeqUnder, hinit]
  exact List.foldl_hom reflect8 hbyte

theorem crc8SeqUnderR_eq_mirror (q : Byte) (M : Message) : crc8SeqUnderR q M = crc8SeqUnder (reflect8 q) M := by
  rw [crc8SeqUnderR, accSeqUnderR_eq_mirror, reflect8_reflect8]

/-- Settles O15: the two folds have the same byte step, and the reflected checksum is the mirror of the normal one. -/
theorem mismatchedPolynomialIsDefined : Obligations.MismatchedPolynomialIsDefined := fun M q =>
  ⟨crc8Tbl_tableN q M, crc8TblR_tableR q M, (crc8TblR_tableR q M).trans (crc8SeqUnderR_eq_mirror q M)⟩

/-! A message of one byte reads one entry of the table (R102, R127). -/

theorem crc8Tbl_singleton (T : Table) (b : Byte) : crc8Tbl [b] T = T b :=
  congrArg T BitVec.zero_xor

theorem crc8TblR_singleton (T : Table) (b : Byte) : crc8TblR [b] T = reflect8 (T (reflect8 b)) :=
  congrArg (fun i => reflect8 (T i)) BitVec.zero_xor

/-- The one-byte messages tell normal tables apart. -/
theorem crc8Tbl_ext_iff {T T' : Table} : (∀ M, crc8Tbl M T = crc8Tbl M T') ↔ ∀ i, T i = T' i := by
  constructor
  · intro h i
    rw [← crc8Tbl_singleton T i, h, crc8Tbl_singleton]
  · intro h M
    rw [funext h]

/-- The one-byte messages tell reflected tables apart. -/
theorem crc8TblR_ext_iff {T T' : Table} : (∀ M, crc8TblR M T = crc8TblR M T') ↔ ∀ i, T i = T' i := by
  constructor
  · intro h i
    have hentry := h [reflect8 i]
    rw [crc8TblR_singleton, crc8TblR_singleton, reflect8_reflect8] at hentry
    exact reflect8_injective hentry
  · intro h M
    rw [funext h]

/-- Entry 1 of a normal table is its polynomial. -/
theorem tableN_eq_iff {q q' : Byte} : (∀ i, tableN q i = tableN q' i) ↔ q = q' := by
  constructor
  · intro h
    rw [← byteN_one q, ← byteN_one q']
    exact h 0x01
  · rintro rfl _
    rfl

/-- Entry 0x80 of a reflected table is its polynomial. -/
theorem tableR_eq_iff {q q' : Byte} : (∀ i, tableR q i = tableR q' i) ↔ q = q' := by
  constructor
  · intro h
    rw [← byteR_top q, ← byteR_top q']
    exact h 0x80
  · rintro rfl _
    rfl

/-- Settles O16: the sequential engines are the table engines with the tables of the constants, which the one-byte messages
determine. -/
theorem agreementForcesTheTable : Obligations.AgreementForcesTheTable :=
  ⟨fun _ => crc8Tbl_ext_iff, fun _ => crc8TblR_ext_iff, fun _ => tableN_eq_iff, fun _ => tableR_eq_iff⟩

/-! BLDT (R101, R104). -/

/-- The words of a build, written out. -/
theorem tableWords_eq (T : Table) : tableWords T =
    (List.range 255).map (fun i => 0x0000#16 ||| (T (BitVec.ofNat 8 i)).setWidth 16) ++
      [0x4000#16 ||| (T 0xFF).setWidth 16] := by
  unfold tableWords
  rfl

/-- Settles O32: the accepted build, its word as the host encodes it, a bad `CZ`, and its word outside `IDLE`. -/
theorem bldtFollowsItsRule : Obligations.BldtFollowsItsRule :=
  ⟨fun _ q hp => ⟨_, exec_bldt_idle hp q, bankRead_normal_filled _ rfl, rfl,
      congrArg _ (tableWords_eq (tableN q)), rfl⟩,
    fun _ q _ hp hi => step_of_offer (i := .bldt q) hp hi,
    fun _ _ _ hp hi _ hcz => step_of_illegalCommand hp hi (legalCommandWord_of_nonzeroCZ hcz),
    fun _ q _ hp hi => step_of_offer_outside_idle (i := .bldt q) hp hi⟩

/-! The command word of a table engine whose table is not built (R103, R128, R163). -/

theorem step_of_checksumCommand_not_ready {op : ChecksumOp} {s : State} {rest : List HostEvent} (hp : s.phase = .idle)
    (hr : tableReady op s = false) (hi : s.input = offer (checksumCommand op) :: rest) :
    step s = .next (faulted 3 { s with input := rest }) := by
  have hr' : tableReady op { s with input := rest } = false := hr
  rw [step_of_offer hp hi, exec_checksumCommand]
  exact beginChecksum_not_ready hp hr'

/-! CRC8T (R103, R104). -/

theorem accAfterByte_crc8t {s : State} (hop : s.op = .crc8t) (b : Byte) :
    accAfterByte b s = bankRead .normal s (s.acc ^^^ b) := by
  simp only [accAfterByte, hop]
  rfl

theorem checksumResult_crc8t (s : State) : checksumResult .crc8t s = s.acc := rfl

/-- Settles O33: the command word with a table and without one, the byte step, the end of the message, a bad command word, a
bad data word, and the command word outside `IDLE`. -/
theorem crc8tFollowsItsRule : Obligations.Crc8tFollowsItsRule := by
  refine ⟨fun s hp hv => beginChecksum_ready hp hv, fun s rest hp hi => ?command,
    fun s b rest hp hop hi => ?byte, fun s rest hp hop hi => ?finish,
    fun s w rest hp hi hopc hbad => step_of_illegalCommand hp hi (legalCommandWord_of_nonzero_without_operand ?_ hbad),
    fun s w rest hp _ hi hbad => step_of_illegalData hp hi (legalDataWord_of_badDataFields hbad),
    fun s rest hp hi => step_of_offer_outside_idle (i := .crc8t) hp hi⟩
  case command =>
    split <;> rename_i hv
    · exact step_of_checksumCommand (op := .crc8t) hp hv hi
    · exact step_of_checksumCommand_not_ready (op := .crc8t) hp (Bool.eq_false_iff.2 hv) hi
  case byte => rw [step_of_messageByte hp hi, accAfterByte_crc8t hop]
  case finish =>
    rw [step_of_messageEnd hp hi, hop, checksumResult_crc8t]
    rfl
  · rw [hopc]
    decide

/-- The loop invariant of CRC8T: the fold of its lookup is the table-driven checksum. -/
theorem accAfterMessage_crc8t (M : Message) (s : State) :
    accAfterMessage M (startMessage .crc8t s) = crc8Tbl M (bankRead .normal s) := rfl

/-- Settles O46: the build, the run of a whole message with the loop invariant after `k` of its bytes, and the command word
without a table. -/
theorem normalTableRunComputesChecksum : Obligations.NormalTableRunComputesChecksum := by
  refine ⟨fun s q rest hp hi => ?build, fun s M rest hp hv hi => ?message, fun s rest hp hv hi => ?notBuilt⟩
  case build =>
    have hstep := (step_of_offer (i := .bldt q) hp hi).trans (exec_bldt_idle (s := { s with input := rest }) hp q)
    exact ⟨_, hstep, bankRead_normal_filled _ rfl, rfl, rfl, rfl⟩
  case message =>
    have hready : tableReady .crc8t s = true := hv
    have hinput : s.input = checksumEvents .crc8t M ++ rest := hi
    constructor
    · rw [← length_checksumEvents .crc8t M, runSteps_checksumEvents hp hready hinput, accAfterMessage_crc8t]
      rfl
    · intro k hk
      rw [← accAfterMessage_crc8t _ s]
      exact runSteps_firstBytes hp hready hinput hk
  case notBuilt => exact ⟨_, step_of_checksumCommand_not_ready (op := .crc8t) hp hv hi, rfl, rfl⟩

end Sys2Proof.Machine
end

section
/-! PROOFS. The sequential engine of the reflected convention: the rule of CRC8SR (O34) and its run (O47). -/

namespace Sys2Proof.Machine

/-! The reflected engines keep `ACC` unreflected and reflect the byte they return (R117, R127). -/

theorem checksumResult_of_reflected {op : ChecksumOp} (hop : isReflected op = true) (s : State) :
    checksumResult op s = reflect8 s.acc :=
  if_pos hop

/-- The loop invariant of the reflected engines: `ACC` after a message is the mirror of the byte the engine returns for it. -/
theorem accAfterMessage_of_reflected {op : ChecksumOp} (hop : isReflected op = true) (M : Message) (s : State) :
    accAfterMessage M (startMessage op s) = reflect8 (engineResult op M s) := by
  rw [← checksumResult_accAfterMessage, checksumResult_of_reflected hop, reflect8_reflect8]

/-! CRC8SR (R118, R119). -/

theorem accAfterByte_crc8sr {s : State} (hop : s.op = .crc8sr) (b : Byte) :
    accAfterByte b s = byteR (s.acc ^^^ reflect8 b) Config.RPOLY := by
  simp only [accAfterByte, hop]
  rfl

theorem accAfterMessage_crc8sr (M : Message) (s : State) :
    accAfterMessage M (startMessage .crc8sr s) = reflect8 (crc8SeqR M) :=
  accAfterMessage_of_reflected (op := .crc8sr) rfl M s

/-- Settles O34: the command word, the byte step, the end of the message with its result reflected, a bad command word, a bad
data word, and the command word outside `IDLE`. -/
theorem crc8srFollowsItsRule : Obligations.Crc8srFollowsItsRule := by
  refine ⟨fun s hp => beginChecksum_ready hp (tableReady_crc8sr s),
    fun s rest hp hi => step_of_checksumCommand (op := .crc8sr) hp (tableReady_crc8sr s) hi,
    fun s b rest hp hop hi => ?byte, fun s rest hp hop hi => ?finish, fun s w rest hp hi hopc hbad => ?badCommand,
    fun s w rest hp _ hi hbad => step_of_illegalData hp hi (legalDataWord_of_badDataFields hbad),
    fun s rest hp hi => step_of_offer_outside_idle (i := .crc8sr) hp hi⟩
  case byte => rw [step_of_messageByte hp hi, accAfterByte_crc8sr hop]
  case finish =>
    rw [step_of_messageEnd hp hi, hop, checksumResult_of_reflected rfl]
    rfl
  case badCommand =>
    exact step_of_illegalCommand hp hi (legalCommandWord_of_nonzero_without_operand (by simp [hopc]) hbad)

/-- Settles O47: the run of a whole message, and the loop invariant after `k` of its bytes, where reflecting `ACC` undoes its
mirror. -/
theorem crc8srRunComputesChecksum : Obligations.Crc8srRunComputesChecksum := by
  intro s M rest hp hi
  have hready : tableReady .crc8sr s = true := tableReady_crc8sr s
  have hinput : s.input = checksumEvents .crc8sr M ++ rest := hi
  constructor
  · rw [← length_checksumEvents .crc8sr M, runSteps_checksumEvents hp hready hinput, accAfterMessage_crc8sr]
    rfl
  · intro k hk
    obtain ⟨t, hrun, hphase, hacc⟩ := runSteps_firstBytes hp hready hinput hk
    exact ⟨t, hrun, hphase, by rw [hacc, accAfterMessage_crc8sr, reflect8_reflect8]⟩

end Sys2Proof.Machine
end

section
/-! PROOFS. The table of the reflected convention: the mirror image of the normal one (O12), the rules of BLDTR (O35) and
CRC8TR (O36), and their runs (O48). -/

namespace Sys2Proof.Machine

/-! The two tables (R130). -/

/-- The byte mirror, entry by entry. -/
theorem tableR_reflect8 (q i : Byte) : tableR (reflect8 q) i = reflect8 (tableN q (reflect8 i)) := by
  rw [tableR, tableN, ← byteR_reflect8, reflect8_reflect8]

/-- The two constants of R7 are each other's mirror. -/
theorem tableR_D9_eq_mirror (i : Byte) : tableR 0xD9 i = reflect8 (tableN 0x9B (reflect8 i)) := by
  have hpoly : (0xD9 : Byte) = reflect8 0x9B := by decide
  rw [hpoly, tableR_reflect8]

/-- Settles O12: the mirror for every polynomial and for the two constants, then the entries at 1 and 0. -/
theorem tablesAreMirrorImages : Obligations.TablesAreMirrorImages :=
  ⟨tableR_reflect8, tableR_D9_eq_mirror, byteN_one 0x9B, by decide, byteN_zero 0x9B, byteR_zero 0xD9⟩

/-! BLDTR (R126, R129). -/

/-- Settles O35: the accepted build, its word as the host encodes it, a bad `CZ`, and its word outside `IDLE`. -/
theorem bldtrFollowsItsRule : Obligations.BldtrFollowsItsRule :=
  ⟨fun _ q hp => ⟨_, exec_bldtr_idle hp q, bankRead_reflected_filled _ rfl, rfl,
      congrArg _ (tableWords_eq (tableR q)), rfl⟩,
    fun _ q _ hp hi => step_of_offer (i := .bldtr q) hp hi,
    fun _ _ _ hp hi _ hcz => step_of_illegalCommand hp hi (legalCommandWord_of_nonzeroCZ hcz),
    fun _ q _ hp hi => step_of_offer_outside_idle (i := .bldtr q) hp hi⟩

/-! The command word of a checksum operation, whether its table is built or not (R103, R128, R163). -/

theorem step_of_checksumCommand_idle {op : ChecksumOp} {s : State} {rest : List HostEvent} (hp : s.phase = .idle)
    (hi : s.input = offer (checksumCommand op) :: rest) :
    step s = .next (if tableReady op s then { s with input := rest, acc := Config.INIT, op := op, phase := .msg }
      else faulted 3 { s with input := rest }) := by
  by_cases hr : tableReady op s = true
  · rw [if_pos hr, step_of_checksumCommand hp hr hi]
  · rw [if_neg hr, step_of_checksumCommand_not_ready hp (Bool.eq_false_iff.2 hr) hi]

/-! CRC8TR (R128, R129). -/

theorem accAfterByte_crc8tr {s : State} (hop : s.op = .crc8tr) (b : Byte) :
    accAfterByte b s = bankRead .reflected s (s.acc ^^^ reflect8 b) := by
  simp only [accAfterByte, hop]
  rfl

/-- Settles O36: the command word with a table and without one, the lookup, the end of the message with its result reflected,
a bad command word, a bad data word, and the command word outside `IDLE`. -/
theorem crc8trFollowsItsRule : Obligations.Crc8trFollowsItsRule := by
  refine ⟨fun s hp hv => beginChecksum_ready hp hv, fun s rest hp hi => step_of_checksumCommand_idle (op := .crc8tr) hp hi,
    fun s b rest hp hop hi => ?lookup, fun s rest hp hop hi => ?finish, fun s w rest hp hi hopc hbad => ?badCommand,
    fun s w rest hp _ hi hbad => step_of_illegalData hp hi (legalDataWord_of_badDataFields hbad),
    fun s rest hp hi => step_of_offer_outside_idle (i := .crc8tr) hp hi⟩
  case lookup => rw [step_of_messageByte hp hi, accAfterByte_crc8tr hop]
  case finish =>
    rw [step_of_messageEnd hp hi, hop, checksumResult_of_reflected rfl]
    rfl
  case badCommand =>
    exact step_of_illegalCommand hp hi (legalCommandWord_of_nonzero_without_operand (by simp [hopc]) hbad)

/-- `ACC` after a message is the mirror of the checksum under the table in the bank. -/
theorem accAfterMessage_crc8tr (M : Message) (s : State) :
    accAfterMessage M (startMessage .crc8tr s) = reflect8 (crc8TblR M (bankRead .reflected s)) :=
  accAfterMessage_of_reflected (op := .crc8tr) rfl M s

/-- Settles O48: the build, the run of a whole message, and the command word without a table. -/
theorem reflectedTableRunComputesChecksum : Obligations.ReflectedTableRunComputesChecksum := by
  refine ⟨fun s q rest hp hi => ?build, fun s M rest hp hv hi => ?message, fun s rest hp hv hi => ?notBuilt⟩
  case build =>
    have hstep := (step_of_offer (i := .bldtr q) hp hi).trans (exec_bldtr_idle (s := { s with input := rest }) hp q)
    exact ⟨_, hstep, bankRead_reflected_filled _ rfl, rfl, rfl, rfl⟩
  case message =>
    have hready : tableReady .crc8tr s = true := hv
    have hinput : s.input = checksumEvents .crc8tr M ++ rest := hi
    rw [← length_checksumEvents .crc8tr M, runSteps_checksumEvents hp hready hinput, accAfterMessage_crc8tr]
    rfl
  case notBuilt => exact ⟨_, step_of_checksumCommand_not_ready (op := .crc8tr) hp hv hi, rfl, rfl⟩

end Sys2Proof.Machine
end

section
/-! PROOFS. The equivalence laws: the mirror between the two conventions (O11), the four engines (O49), the empty message (O51),
two builds with one polynomial (O52) and two reflections (O50). -/

namespace Sys2Proof.Machine

/-! Reflection (R142, R143, R146). -/

/-- Settles O11: reflecting commutes with a round, and so with the eight rounds of a byte step. -/
theorem roundAndByteMirror : Obligations.RoundAndByteMirror := fun a q =>
  ⟨roundR_reflect8 a q, byteR_reflect8 a q⟩

/-- Settles O50: the byte between the two commands is `reflect8 b`, and the reflector is its own inverse. -/
theorem reflectingTwiceReturnsTheByte : Obligations.ReflectingTwiceReturnsTheByte := by
  refine fun b => ⟨reflect8_reflect8 b, fun s hp => ⟨reflect8 b, _, exec_reflect8_idle hp b, rfl, ?_⟩⟩
  have hagain := exec_reflect8_idle (s := { s with out := s.out ++ [lastWord (reflect8 b)] }) hp (reflect8 b)
  rw [reflect8_reflect8] at hagain
  exact ⟨_, hagain, rfl⟩

/-! The four engines (R140, R141, R144, R145). -/

/-- `RPOLY` is the mirror of `POLY`, so the reflected engine computes the normal checksum. -/
theorem crc8SeqR_eq_crc8SeqN (M : Message) : crc8SeqR M = crc8SeqN M := by
  have hpoly : reflect8 Config.RPOLY = Config.POLY := by decide
  rw [crc8SeqR, crc8SeqUnderR_eq_mirror, hpoly, crc8SeqN]

/-- A checksum operation whose table, if it needs one, is that of its constant returns the normal sequential checksum. -/
theorem words_checksum_eq {op : ChecksumOp} {p : Builds} (hN : op = .crc8t → p.normal = some Config.POLY)
    (hR : op = .crc8tr → p.reflected = some Config.RPOLY) (M : Message) :
    (Operation.checksum op M).words p = some [lastWord (crc8SeqN M)] := by
  cases op with
  | crc8s => rfl
  | crc8t => rw [Operation.words, hN rfl, Option.map_some, crc8Tbl_tableN, crc8SeqN]
  | crc8sr => rw [Operation.words, crc8SeqR_eq_crc8SeqN]
  | crc8tr => rw [Operation.words, hR rfl, Option.map_some, crc8TblR_tableR, ← crc8SeqR, crc8SeqR_eq_crc8SeqN]

/-- Settles O49: a table engine with the table of its constant is the sequential engine, and the command is one more operation
of the session. -/
theorem fourEnginesAgree : Obligations.FourEnginesAgree := by
  refine ⟨fun M => ⟨(crc8Tbl_tableN Config.POLY M).symm, (crc8TblR_tableR Config.RPOLY M).symm,
    (crc8SeqR_eq_crc8SeqN M).symm⟩, ?_⟩
  intro os op M p rs s rest hp hb hrs hN hR hi
  obtain ⟨t, ht, hst⟩ := runSteps_session hp hb hi hrs
  obtain ⟨u, hu, htu⟩ := runSteps_operation (o := .checksum op M) hst.phase hst.builds hst.input (words_checksum_eq hN hR M)
  have hsu := hst.trans htu
  refine ⟨u, ?_, hsu.phase, hsu.input, hsu.out.trans (List.append_assoc ..).symm⟩
  rw [← length_checksumEvents op M]
  exact runSteps_trans ht hu

/-! The empty message (R147). -/

@[simp] theorem reflect8_zero : reflect8 0x00 = 0x00 := by decide

/-- Each engine returns `INIT`, which is its own reflection. -/
theorem engineResult_nil (op : ChecksumOp) (s : State) : engineResult op [] s = 0x00 := by
  cases op with
  | crc8s | crc8t => rfl
  | crc8sr | crc8tr => exact reflect8_zero

/-- Settles O51: the run of a checksum operation over no bytes, and the command word without its table. -/
theorem emptyMessageGivesZero : Obligations.EmptyMessageGivesZero := by
  refine ⟨fun _ => ⟨rfl, rfl, reflect8_zero, reflect8_zero⟩, fun s op rest hp hi => ⟨fun hr => ?_, fun hr => ?_⟩⟩
  · have hrun := runSteps_checksumEvents (M := []) hp hr hi
    rw [engineResult_nil] at hrun
    exact ⟨_, hrun, hp, rfl, rfl⟩
  · exact step_of_checksumCommand_not_ready hp hr hi

/-! Builds (R148). -/

@[simp] theorem length_tableWords (T : Table) : (tableWords T).length = 256 := by simp [tableWords_eq]

theorem head?_tableWords (T : Table) : (tableWords T).head? = some (moreWord (T 0x00)) := by
  unfold tableWords
  rfl

theorem exec_buildCommand_idle {s : State} (hp : s.phase = .idle) (b : BankId) (q : Byte) :
    exec (buildCommand b q) s = .next (buildBank b (builtTable b q) s) := by
  cases b <;> exact whenIdle_idle hp _

@[simp] theorem buildBank_out (b : BankId) (T : Table) (s : State) : (buildBank b T s).out = s.out ++ tableWords T := by
  cases b with
  | normal => rw [buildBank_normal]
  | reflected => rw [buildBank_reflected]

/-- A build stores and emits its table whatever the bank held, its own earlier contents among them. -/
theorem build_twice (b : BankId) (q : Byte) {s : State} (hp : s.phase = .idle) :
    ∃ t u ws, exec (buildCommand b q) s = .next t ∧ exec (buildCommand b q) t = .next u ∧ ws.length = 256 ∧
      ws.head? = some 0x0000 ∧ t.out = s.out ++ ws ∧ u.out = t.out ++ ws ∧ ∀ i, bankRead b u i = bankRead b t i := by
  have hfirst : (tableWords (builtTable b q)).head? = some 0x0000 := by
    rw [head?_tableWords, builtTable_zero]
    rfl
  exact ⟨_, _, _, exec_buildCommand_idle hp b q, exec_buildCommand_idle ((buildBank_phase ..).trans hp) b q,
    length_tableWords _, hfirst, buildBank_out .., buildBank_out ..,
    fun i => (bankHolds_buildBank b _ _ i).trans (bankHolds_buildBank b _ s i).symm⟩

/-- Settles O52: the two entries at index 0, and `build_twice` for the two banks. -/
theorem buildingTwiceIsTheSame : Obligations.BuildingTwiceIsTheSame := fun q =>
  ⟨byteN_zero q, byteR_zero q, fun _ hp => ⟨build_twice .normal q hp, build_twice .reflected q hp⟩⟩

end Sys2Proof.Machine
end

section
/-! PROOFS. The three faults, each taken on exactly the words and states of its rule (O21, O22, O23), fault entry (O24), and
the way out of `PHASE = FAULT` (O25). -/

namespace Sys2Proof.Machine

/-! The conditions of R161 and R162 are the field checks that fail. -/

theorem badCommandFields_iff {w : IoWord} : BadCommandFields w ↔ legalCommandWord w = false := by
  simp [BadCommandFields, legalCommandWord, opcAssigned, czIsZero, immZeroWhereRequired, or_assoc, imp_iff_not_or]

theorem badDataFields_iff {w : IoWord} : BadDataFields w ↔ legalDataWord w = false := by
  simp [BadDataFields, legalDataWord, dzIsZero, byteZeroAtEnd, imp_iff_not_or]

/-- A word that is legal as a command is one that matches a row of the opcode map (R65). -/
theorem legalCommandWord_iff_accepted {w : IoWord} :
    legalCommandWord w = true ↔ ∃ r ∈ opcodeMap, r.accepts w = true := by
  rw [legalCommandWord_iff_decode]
  constructor
  · rintro ⟨i, hd⟩
    obtain ⟨r, hr, hm⟩ := exists_row i
    exact ⟨r, hr, (accepts_iff_decode hr).2 ⟨i, hd, hm.symm⟩⟩
  · rintro ⟨r, hr, ha⟩
    obtain ⟨i, hd, _⟩ := (accepts_iff_decode hr).1 ha
    exact ⟨i, hd⟩

theorem exists_eq_byteWord_iff {w : IoWord} : (∃ b, w = encodeData (.byte b)) ↔ w.toNat ≤ 0x00FF := by
  constructor
  · rintro ⟨b, rfl⟩
    rw [toNat_byteWord]
    exact Nat.le_of_lt_succ b.isLt
  · intro hw
    refine ⟨w.setWidth 8, BitVec.eq_of_toNat_eq ?_⟩
    rw [toNat_byteWord, BitVec.toNat_setWidth, Nat.mod_eq_of_lt (Nat.lt_succ_of_le hw)]

/-- The legal data words (R62). -/
theorem legalDataWord_iff_byte_or_end {w : IoWord} : legalDataWord w = true ↔ w.toNat ≤ 0x00FF ∨ w = 0x8000 := by
  rw [legalDataWord_iff_decodeData, ← exists_eq_byteWord_iff]
  simp only [decodeData_eq_ok_iff]
  constructor
  · rintro ⟨b | _, hw⟩
    · exact .inl ⟨b, hw⟩
    · exact .inr hw
  · rintro (⟨b, hw⟩ | hw)
    · exact ⟨.byte b, hw⟩
    · exact ⟨.endOfMessage, hw⟩

/-! The three faults (R161, R162, R163) and their entry (R165). -/

/-- The condition of R163 on a word read in `IDLE`. -/
def NeedsUnbuiltTable (w : IoWord) (s : State) : Prop := (w = 0x4000 ∧ s.tvN = false) ∨ (w = 0x7000 ∧ s.tvR = false)

/-- A checksum command whose table is not built is one of the two words of R163. -/
theorem needsUnbuiltTable_iff {w : IoWord} {s : State} :
    NeedsUnbuiltTable w s ↔ ∃ op, w = encode (checksumCommand op) ∧ tableReady op s = false := by
  constructor
  · rintro (⟨rfl, hv⟩ | ⟨rfl, hv⟩)
    · exact ⟨.crc8t, rfl, hv⟩
    · exact ⟨.crc8tr, rfl, hv⟩
  · rintro ⟨op, rfl, hr⟩
    cases op with
    | crc8s | crc8sr => cases hr
    | crc8t => exact .inl ⟨rfl, hr⟩
    | crc8tr => exact .inr ⟨rfl, hr⟩

/-- The three ways the step on `w` enters `FAULT` from `s`, each with its rule's condition and the state it leaves. -/
inductive FaultEntry (w : IoWord) (s t : State) : Prop where
  | illegalCommand (hp : s.phase = .idle) (hw : legalCommandWord w = false) (ht : t = faulted 1 s)
  | illegalDataWord (hp : s.phase = .msg) (hw : legalDataWord w = false) (ht : t = faulted 2 s)
  | tableNotBuilt (hp : s.phase = .idle) (hw : NeedsUnbuiltTable w s) (ht : t = faulted 3 s)

theorem WordEffect.faultEntry {w : IoWord} {s t : State} (h : WordEffect w s t) (ht : t.phase = .fault) :
    FaultEntry w s t := by
  cases h with
  | badCommand e hp hd he =>
    refine .illegalCommand hp (Bool.eq_false_iff.2 fun hw => ?_) he
    obtain ⟨i, hi⟩ := legalCommandWord_iff_decode.1 hw
    cases hd.symm.trans hi
  | badData e hp hd he =>
    refine .illegalDataWord hp (Bool.eq_false_iff.2 fun hw => ?_) he
    obtain ⟨d, hi⟩ := legalDataWord_iff_decodeData.1 hw
    cases hd.symm.trans hi
  | notBuilt op hp hd hr he =>
    exact .tableNotBuilt hp (needsUnbuiltTable_iff.2 ⟨op, decode_eq_ok_iff.1 hd, hr⟩) he
  | reflected _ hp _ he | builtNormal _ hp _ he | builtReflected _ hp _ he | started _ hp _ _ he | byte _ hp _ he
  | ended hp _ he => simp [he, hp] at ht

theorem step_faultEntry {s t : State} {w : IoWord} {rest : List HostEvent} (hi : s.input = .word w :: rest)
    (hs : step s = .next t) (ht : t.phase = .fault) : FaultEntry w { s with input := rest } t :=
  (consumeWord_effect ((step_of_word hi).symm.trans hs)).faultEntry ht

/-- `CAUSE` tells the three faults apart: the code of a fault entry gives back the condition of its rule. -/
theorem step_faulted_cause {s : State} {w : IoWord} {rest : List HostEvent} {code : BitVec 4}
    (hi : s.input = .word w :: rest) (hs : step s = .next (faulted code { s with input := rest })) :
    (s.phase = .idle ∧ legalCommandWord w = false ∧ code = 1) ∨ (s.phase = .msg ∧ legalDataWord w = false ∧ code = 2) ∨
    (s.phase = .idle ∧ NeedsUnbuiltTable w s ∧ code = 3) := by
  cases step_faultEntry hi hs rfl with
  | illegalCommand hp hw ht => exact .inl ⟨hp, hw, congrArg State.cause ht⟩
  | illegalDataWord hp hw ht => exact .inr (.inl ⟨hp, hw, congrArg State.cause ht⟩)
  | tableNotBuilt hp hw ht => exact .inr (.inr ⟨hp, hw, congrArg State.cause ht⟩)

/-- Settles O21: a fault with code 1 is a word that fails the field checks, and one that passes them decodes by a row. -/
theorem illegalCommandIsTaken : Obligations.IllegalCommandIsTaken := by
  intro s w rest hp hi
  rw [badCommandFields_iff]
  refine ⟨⟨step_of_illegalCommand hp hi, fun hs => ?_⟩, ?_⟩
  · obtain ⟨_, hw, _⟩ | ⟨_, _, hcode⟩ | ⟨_, _, hcode⟩ := step_faulted_cause (code := 1) hi hs
    · exact hw
    · cases hcode
    · cases hcode
  · rw [← Bool.not_eq_true, legalCommandWord_iff_accepted]
    simp

/-- Settles O22: a fault with code 2 is a word in a message that fails the field checks, and the words that pass them are the
byte words and `0x8000`. -/
theorem illegalDataWordIsTaken : Obligations.IllegalDataWordIsTaken := by
  intro s w rest hp hi
  rw [badDataFields_iff]
  refine ⟨⟨step_of_illegalData hp hi, fun hs => ?_⟩, ?_⟩
  · obtain ⟨_, _, hcode⟩ | ⟨_, hw, _⟩ | ⟨_, _, hcode⟩ := step_faulted_cause (code := 2) hi hs
    · cases hcode
    · exact hw
    · cases hcode
  · rw [← legalDataWord_iff_byte_or_end, Bool.not_eq_true]

theorem step_of_needsUnbuiltTable {s : State} {w : IoWord} {rest : List HostEvent} (hp : s.phase = .idle)
    (hi : s.input = .word w :: rest) (hw : NeedsUnbuiltTable w s) : step s = .next (faulted 3 { s with input := rest }) := by
  obtain ⟨op, rfl, hr⟩ := needsUnbuiltTable_iff.1 hw
  exact step_of_checksumCommand_not_ready hp hr hi

/-- Settles O23: a fault with code 3 is a checksum command without its table, and so is the meaning of that command. -/
theorem tableNotBuiltIsTaken : Obligations.TableNotBuiltIsTaken := by
  refine ⟨fun s w rest hp hi => ⟨step_of_needsUnbuiltTable hp hi, fun hs => ?_⟩,
    fun s hp hv => beginChecksum_not_ready (op := .crc8t) hp hv, fun s hp hv => beginChecksum_not_ready (op := .crc8tr) hp hv⟩
  obtain ⟨_, _, hcode⟩ | ⟨_, _, hcode⟩ | ⟨_, hw, _⟩ := step_faulted_cause (code := 3) hi hs
  · cases hcode
  · cases hcode
  · exact hw

theorem FaultEntry.eq_faulted {w : IoWord} {s t : State} (h : FaultEntry w s t) :
    ∃ code : BitVec 4, (code = 1 ∨ code = 2 ∨ code = 3) ∧ t = faulted code s := by
  cases h with
  | illegalCommand _ _ ht => exact ⟨1, .inl rfl, ht⟩
  | illegalDataWord _ _ ht => exact ⟨2, .inr (.inl rfl), ht⟩
  | tableNotBuilt _ _ ht => exact ⟨3, .inr (.inr rfl), ht⟩

/-! In `PHASE = FAULT` (R29, R166). -/

theorem step_of_word_in_fault {s : State} {w : IoWord} {rest : List HostEvent} (hp : s.phase = .fault)
    (hi : s.input = .word w :: rest) : step s = .fault .stuckInFaultPhase :=
  (step_of_word hi).trans (consumeWord_fault (s := { s with input := rest }) hp w)

theorem waitForHost_fault {s : State} (hp : s.phase = .fault) : waitForHost s = .fault .stuckInFaultPhase := by
  simp only [waitForHost, hp]

/-- Settles O24: each way into `FAULT` is fault entry, and `FAULT` accepts no word. -/
theorem faultEntryIsPrecise : Obligations.FaultEntryIsPrecise := fun _ _ _ _ hi _ hs ht =>
  ⟨(step_faultEntry hi hs ht).eq_faulted, fun _ _ => step_of_word_in_fault ht⟩

theorem inResetState_applyReset (s : State) : InResetState (applyReset s) := ⟨rfl, rfl, rfl, rfl⟩

theorem inResetState_of_resetDuring {w : IoWord} {n : Nat} {s t : State} (h : resetDuring w n s = .next t) :
    InResetState t := by
  obtain ⟨_, _, rfl⟩ | ⟨_, rfl⟩ := resetDuring_next h
  · exact inResetState_applyReset _
  · exact inResetState_applyReset _

/-- Settles O25: of the five kinds of step, waiting and a word are stops in `FAULT`, two are resets, and a take moves one word
at `OUT`. -/
theorem onlyResetLeavesFault : Obligations.OnlyResetLeavesFault := by
  intro s hp
  refine ⟨fun _ _ => step_of_word_in_fault hp, fun hi => (step_of_nothing hi).trans (waitForHost_fault hp), fun t hs => ?_⟩
  obtain ⟨_, hne, _⟩ | ⟨w, rest, hi, _⟩ | ⟨rest, hi, rfl⟩ | ⟨w, n, rest, hi, hr⟩ | ⟨rest, hi, rfl⟩ := step_next hs
  · exact absurd hp hne
  · cases (step_of_word_in_fault hp hi).symm.trans hs
  · exact .inl ⟨.inl ⟨rest, hi⟩, inResetState_applyReset _⟩
  · exact .inl ⟨.inr ⟨w, n, rest, hi⟩, inResetState_of_resetDuring hr⟩
  · exact .inr ⟨⟨rest, hi⟩, by simp [hp]⟩

end Sys2Proof.Machine
end

section
/-! PROOFS. `RST` between two steps (O26) and inside one (O27). -/

namespace Sys2Proof.Machine

/-! `WordEffect` says all of the step on a word, and no effect reads the words held at `OUT`. -/

theorem WordEffect.consumeWord_eq {w : IoWord} {s t : State} (h : WordEffect w s t) : consumeWord w s = .next t := by
  have command {i : Instr} (hp : s.phase = .idle) (hd : decode w = .ok i) : consumeWord w s = exec i s :=
    (consumeWord_idle hp w).trans (commandStep_ok hd s)
  have data {d : DataWord} (hp : s.phase = .msg) (hd : decodeData w = .ok d) : consumeWord w s = .next (execData d s) :=
    (consumeWord_msg hp w).trans (dataStep_ok hd s)
  cases h with
  | reflected v hp hd ht => rw [ht, command hp hd]; exact whenIdle_idle hp _
  | builtNormal q hp hd ht | builtReflected q hp hd ht => rw [ht, command hp hd]; exact whenIdle_idle hp _
  | started op hp hd hr ht => rw [ht, command hp hd, exec_checksumCommand, beginChecksum_ready hp hr]
  | notBuilt op hp hd hr ht => rw [ht, command hp hd, exec_checksumCommand, beginChecksum_not_ready hp hr]
  | badCommand e hp hd ht => rw [ht, consumeWord_idle hp, commandStep_error hd]
  | byte b hp hd ht | ended hp hd ht => rw [ht, data hp hd]; rfl
  | badData e hp hd ht => rw [ht, consumeWord_msg hp, dataStep_error hd]

theorem buildBank_with_out (b : BankId) (T : Table) (s : State) (l : List IoWord) :
    buildBank b T { s with out := l } = { buildBank b T s with out := l ++ tableWords T } := by
  cases b with
  | normal => rw [buildBank_normal, buildBank_normal]
  | reflected => rw [buildBank_reflected, buildBank_reflected]

/-- With other words `l` held at `OUT`, a word has the same effect and the step appends the same words. -/
theorem WordEffect.with_out {w : IoWord} {s t : State} (h : WordEffect w s t) (l : List IoWord) :
    ∃ ws, t.out = s.out ++ ws ∧ WordEffect w { s with out := l } { t with out := l ++ ws } := by
  cases h with
  | reflected v hp hd ht => subst ht; exact ⟨[_], rfl, .reflected v hp hd rfl⟩
  | builtNormal q hp hd ht =>
    subst ht
    exact ⟨_, buildBank_out .., .builtNormal q hp hd (buildBank_with_out ..).symm⟩
  | builtReflected q hp hd ht =>
    subst ht
    exact ⟨_, buildBank_out .., .builtReflected q hp hd (buildBank_with_out ..).symm⟩
  | started op hp hd hr ht =>
    subst ht
    exact ⟨[], (List.append_nil _).symm, .started op hp hd hr (by rw [List.append_nil]; rfl)⟩
  | notBuilt op hp hd hr ht => subst ht; exact ⟨[_], rfl, .notBuilt op hp hd hr rfl⟩
  | badCommand e hp hd ht => subst ht; exact ⟨[_], rfl, .badCommand e hp hd rfl⟩
  | byte b hp hd ht =>
    subst ht
    exact ⟨[], (List.append_nil _).symm, .byte b hp hd (by rw [List.append_nil]; rfl)⟩
  | ended hp hd ht => subst ht; exact ⟨[_], rfl, .ended hp hd rfl⟩
  | badData e hp hd ht => subst ht; exact ⟨[_], rfl, .badData e hp hd rfl⟩

/-- `RST` inside the step on `w`, by what that step would emit from the state it starts in (R186, log 8). -/
theorem resetDuring_of_consumeWord {w : IoWord} {s u : State} {ws : List IoWord} (h : consumeWord w s = .next u)
    (hout : u.out = s.out ++ ws) (n : Nat) : resetDuring w n s = .next (applyReset (emitAll (ws.take n) s)) := by
  obtain ⟨ws', hout', heffect⟩ := (consumeWord_effect h).with_out []
  obtain rfl : ws = ws' := List.append_cancel_left (hout.symm.trans hout')
  rw [resetDuring, heffect.consumeWord_eq, List.nil_append]

/-- Settles O27: the words a step emits do not depend on those held, so the prefix is one of the words of the step from `s`. -/
theorem resetInsideAStep : Obligations.ResetInsideAStep := by
  intro s u w n rest ws _ hs hout
  have hw : consumeWord w { s with input := rest } = .next u :=
    (step_of_word (s := { s with input := .word w :: rest }) rfl).symm.trans hs
  exact ⟨_, (step_of_rstDuring rfl).trans (resetDuring_of_consumeWord hw hout n),
    inResetState_applyReset _, rfl, rfl, rfl⟩

/-- Settles O26: `applyReset` leaves the ports alone, and in the `IDLE` it gives a word is a command word. -/
theorem resetFromAnyPhase : Obligations.ResetFromAnyPhase := fun _ _ hi =>
  ⟨_, step_of_rst hi, rfl, rfl, rfl, rfl, rfl, rfl, rfl, fun _ _ hrest => step_of_command rfl hrest⟩

end Sys2Proof.Machine
end

section
/-! PROOFS. Commands inside a message (O29), the canonical form of a bank (O44), waiting and taking (O19, O20), and the state
at reset (O28, O57). -/

namespace Sys2Proof.Machine

/-! A command outside `IDLE` (R192, D21; log 11). -/

/-- The meaning of every command is guarded by `PHASE`. -/
theorem exec_eq_whenIdle (i : Instr) (s : State) : ∃ effect, exec i s = whenIdle s effect := by
  cases i <;> exact ⟨_, rfl⟩

theorem exec_msg {s : State} (hp : s.phase = .msg) (i : Instr) : exec i s = .next (raiseFault .illegalDataWord s) := by
  obtain ⟨effect, heffect⟩ := exec_eq_whenIdle i s
  rw [heffect, whenIdle_msg hp]

/-- Settles O29: the guard of every meaning raises the fault, and no command word is a legal data word. -/
theorem commandInsideMessageIsCaught : Obligations.CommandInsideMessageIsCaught := fun _ i hp =>
  ⟨exec_msg hp i, fun _ hi => step_of_illegalData hp hi (legalDataWord_encode i)⟩

/-! The canonical form of a bank's contents (log 12). -/

theorem Memory.risesFrom_cons {lo k : Nat} {x : Byte} {m : Memory} :
    Memory.risesFrom lo ((k, x) :: m) = true ↔ lo ≤ k ∧ k < 256 ∧ Memory.risesFrom (k + 1) m = true := by
  simp only [Memory.risesFrom, Bool.and_eq_true, decide_eq_true_eq, and_assoc]

theorem Memory.read_cons_self (k : Nat) (x : Byte) (m : Memory) : Memory.read ((k, x) :: m) k = some x := if_pos rfl

theorem Memory.read_cons_of_ne {k a : Nat} (h : a ≠ k) (x : Byte) (m : Memory) :
    Memory.read ((k, x) :: m) a = Memory.read m a := if_neg h

/-- A listed index is not below the bound the indices rise from. -/
theorem Memory.le_of_read_eq_some {lo a : Nat} {m : Memory} {v : Byte} (hm : Memory.risesFrom lo m = true)
    (h : Memory.read m a = some v) : lo ≤ a := by
  induction m generalizing lo with
  | nil => cases h
  | cons c m ih =>
    obtain ⟨k, x⟩ := c
    obtain ⟨hlo, _, htail⟩ := Memory.risesFrom_cons.1 hm
    by_cases hak : a = k
    · omega
    · have := ih htail ((Memory.read_cons_of_ne hak x m).symm.trans h)
      omega

theorem Memory.read_eq_none_of_lt {lo a : Nat} {m : Memory} (hm : Memory.risesFrom lo m = true) (ha : a < lo) :
    Memory.read m a = none :=
  Option.eq_none_iff_forall_ne_some.2 fun _ h => absurd (Memory.le_of_read_eq_some hm h) (Nat.not_le.2 ha)

/-- The first index of rising cells is the least one listed. -/
theorem Memory.head_le_of_read_eq_some {lo k a : Nat} {x v : Byte} {m : Memory}
    (hm : Memory.risesFrom lo ((k, x) :: m) = true) (h : Memory.read ((k, x) :: m) a = some v) : k ≤ a := by
  obtain ⟨_, hk, htail⟩ := Memory.risesFrom_cons.1 hm
  exact Memory.le_of_read_eq_some (Memory.risesFrom_cons.2 ⟨le_rfl, hk, htail⟩) h

/-- Rising cells are determined by what they read: the first cell is at the least index listed, and the cells after it read
as the whole does beyond that index and list nothing up to it. -/
theorem Memory.eq_of_read_eq {lo : Nat} {m m' : Memory} (hm : Memory.risesFrom lo m = true)
    (hm' : Memory.risesFrom lo m' = true) (h : ∀ a, Memory.read m a = Memory.read m' a) : m = m' := by
  induction m generalizing lo m' with
  | nil =>
    cases m' with
    | nil => rfl
    | cons c' m' => exact nomatch (h c'.1).trans (Memory.read_cons_self c'.1 c'.2 m')
  | cons c m ih =>
    obtain ⟨k, x⟩ := c
    have hx : Memory.read m' k = some x := (h k).symm.trans (Memory.read_cons_self k x m)
    cases m' with
    | nil => cases hx
    | cons c' m' =>
      obtain ⟨k', x'⟩ := c'
      have hx' : Memory.read ((k, x) :: m) k' = some x' := (h k').trans (Memory.read_cons_self k' x' m')
      obtain rfl : k = k' :=
        le_antisymm (Memory.head_le_of_read_eq_some hm hx') (Memory.head_le_of_read_eq_some hm' hx)
      obtain rfl : x = x' := Option.some.inj (hx.symm.trans (Memory.read_cons_self k x' m'))
      obtain ⟨_, _, htail⟩ := Memory.risesFrom_cons.1 hm
      obtain ⟨_, _, htail'⟩ := Memory.risesFrom_cons.1 hm'
      have hread (a : Nat) : Memory.read m a = Memory.read m' a := by
        by_cases hak : a = k
        · rw [hak, Memory.read_eq_none_of_lt htail (Nat.lt_succ_self k),
            Memory.read_eq_none_of_lt htail' (Nat.lt_succ_self k)]
        · rw [← Memory.read_cons_of_ne hak x m, h a, Memory.read_cons_of_ne hak x m']
      rw [ih htail htail' hread]

/-- Settles O44: the canonical form is cells whose indices rise from 0. -/
theorem canonicalBanksAreDetermined : Obligations.CanonicalBanksAreDetermined := fun _ _ => Memory.eq_of_read_eq

/-! Waiting and taking (R178, R180). -/

theorem waitForHost_of_not_fault {s : State} (hp : s.phase ≠ .fault) : waitForHost s = .next s := by
  cases hphase : s.phase with
  | idle | msg => simp only [waitForHost, hphase]
  | fault => exact absurd hphase hp

/-- Settles O19: outside `FAULT` the block waits. -/
theorem waitingKeepsAllState : Obligations.WaitingKeepsAllState := fun _ hi hp =>
  (step_of_nothing hi).trans (waitForHost_of_not_fault hp)

/-- Settles O20: the step on a take is `takeWord`, with a word held and with none. -/
theorem takingDrainsInOrder : Obligations.TakingDrainsInOrder := fun s rest hi =>
  ⟨fun w ws hout => (step_of_take hi).trans (congrArg _ (takeWord_cons { s with input := rest } w ws hout)),
    fun hout => (step_of_take hi).trans (congrArg _ (takeWord_nil { s with input := rest } hout))⟩

/-! The state at reset (R32, R34). -/

/-- Settles O28: each value is a field of `State.reset`. -/
theorem resetStateValues : Obligations.ResetStateValues := ⟨rfl, rfl, rfl, rfl⟩

/-- Settles O57: the invariant at reset, before the host has done anything. -/
theorem invariantAtReset : Obligations.InvariantAtReset := machineInv_reset []

end Sys2Proof.Machine
end
